-- ==== Sys2Proof/Word.lean ====
section
/-! DEFINITION. The block's value types (R10: every value is unsigned, bit 0 is the least significant bit). -/

namespace Sys2Proof

/-- One byte of `M`, of a payload or of a packet. -/
abbrev Byte := BitVec 8

/-- A 16-bit value of the CRC engine: accumulator, polynomial, masks, result (R100). -/
abbrev Half := BitVec 16

/-- The 32-bit data of the host port and the command word (R50, R70). -/
abbrev Word := BitVec 32

/-- The 13-bit address of the host port (R50). -/
abbrev PortAddr := BitVec 13

end Sys2Proof
end

