-- ==== Sys2Proof/Config.lean ====
section
/-! DEFINITION. What the hardware fixes: the CRC configuration (R6, R7), the sizes, bases and addresses (R8, R9,
R29, R52), the wire byte codes (R82), and the one free value the spec leaves open (93_implementation_defined.md U1). -/

namespace Sys2Proof

/-- The seven-field CRC configuration record (R6); the five numeric fields are 16-bit values (R7). -/
structure CrcConfig where
  poly    : Half
  init    : Half
  xorout  : Half
  msbMask : Half
  mask    : Half
  refin   : Bool
  refout  : Bool
  deriving DecidableEq, Repr

/-- `XMODEM_CFG`, the block's one configuration (R6). -/
def xmodemCfg : CrcConfig :=
  { poly := 0x1021#16, init := 0x0000#16, xorout := 0x0000#16, msbMask := 0x8000#16, mask := 0xFFFF#16,
    refin := false, refout := false }

/-- The protocol byte codes, "a closed enumeration" (R82); the block produces only `soh` and `stx`. -/
inductive WireCode
  | soh | stx | eot | ack | nak | can | crcMode
  deriving DecidableEq, Repr

/-- The byte of each protocol code (R82). -/
def WireCode.byte : WireCode → Byte
  | .soh => 0x01#8
  | .stx => 0x02#8
  | .eot => 0x04#8
  | .ack => 0x06#8
  | .nak => 0x15#8
  | .can => 0x18#8
  | .crcMode => 0x43#8

namespace Config

/-- `CFG`, hardwired to `XMODEM_CFG` (R7, D12): nothing writes it, so it is no part of State (R20, R21). -/
def cfg : CrcConfig := xmodemCfg

/-- `MEM_SIZE` (R9, R35). -/
abbrev memSize : Nat := 0x805

/-- `PAY_BASE`: the payload buffer is 0x000 to 0x3FF (R9, R35). -/
abbrev payBase : Nat := 0x000

/-- `PKT_BASE`: the packet buffer is 0x400 to 0x804 (R9, R35). -/
abbrev pktBase : Nat := 0x400

/-- `CAP_SHORT` (R8). -/
abbrev capShort : Nat := 128

/-- `CAP_LONG` (R8). -/
abbrev capLong : Nat := 1024

/-- `HDR_LEN`: marker, sequence, complement (R8). -/
abbrev hdrLen : Nat := 3

/-- `TRL_LEN`: the CRC trailer (R8). -/
abbrev trlLen : Nat := 2

/-- The port address of `CMD` (R29). -/
abbrev cmdAddr : PortAddr := 0x1000#13

/-- FREE VALUE (R40, U1): the byte that address `a` of `M` holds when nothing has written it since the `g`-th reset.
It has no body: nothing can evaluate it or prove a value of it (notes/assumptions/4.md). -/
opaque powerOnByte (g a : Nat) : Byte

end Config

end Sys2Proof
end

