-- ==== Sys2Proof/Syntax.lean ====
section
/-! DEFINITION. The seven commands, one constructor per row of spec/opcode_table.json (R70 to R73, R76). -/

namespace Sys2Proof

/-- A command of the set XYF-1 (R72). The operands are the fields of R71, unsigned and taken as they stand (R73). -/
inductive Instr
  /-- `CRC.RST`: reset the streaming accumulator (R110). -/
  | crcRst
  /-- `CRC.UPD byte`: feed one byte to the streaming accumulator (R111). -/
  | crcUpd (byte : BitVec 8)
  /-- `CRC.FIN`: finalize the streaming accumulator into `RES` (R112). -/
  | crcFin
  /-- `CRC.CMP start, len`: CRC of a memory range with `CFG` (R113). -/
  | crcCmp (start len : BitVec 12)
  /-- `CRC.X start, len`: CRC of a memory range with `XMODEM_CFG` (R114). -/
  | crcX (start len : BitVec 12)
  /-- `REV value, n`: reverse the low `n` bits of `value` (R115). -/
  | rev (value : BitVec 16) (n : BitVec 5)
  /-- `PKT.BLD kind, seq, len`: build one packet in the packet buffer (R131). -/
  | pktBld (kind : BitVec 2) (seq len : BitVec 12)
  deriving DecidableEq, Repr

/-- The assembler's `REV value`, which stands for `REV value, 8` (R76). -/
abbrev Instr.revDefault (value : BitVec 16) : Instr := .rev value 8#5

/-- A recognized packet kind: "SHORT(128B) | LONG(1024B)" (R130). -/
inductive PacketKind
  | short | long
  deriving DecidableEq, Repr

end Sys2Proof
end

