-- ==== Sys2Proof/WellFormed.lean ====
section
/-! DEFINITION. Which commands an encoding stands for (R72, R73): every field has its exact width in the type, so the
one check left is `REV`'s `n <= 16`. -/

namespace Sys2Proof

/-- `n` of `REV` is legal from 0 to 16 (R73); every other field is legal at every value of its width. -/
def Instr.wf : Instr → Bool
  | .crcRst => true
  | .crcUpd _ => true
  | .crcFin => true
  | .crcCmp _ _ => true
  | .crcX _ _ => true
  | .rev _ n => decide (n.toNat ≤ 16)
  | .pktBld _ _ _ => true

end Sys2Proof
end

