-- ==== Sys2Proof/Decode.lean ====
section
/-! DEFINITION. The decoder of the command word (R70 to R75), total on every 32-bit word and rejecting by name, and the
encoder written from the same formats (R71, R76). -/

namespace Sys2Proof

/-- Why a word is no command. The block reports every one of them as `IllegalCommand` (R74, R153). -/
inductive DecodeError
  /-- `op` is 0x0 or 0x8 to 0xF. -/
  | reservedOpcode (op : BitVec 4)
  /-- A `zero` field of the row's format is not 0. -/
  | nonZeroField (op : BitVec 4)
  /-- `REV` with `n` from 17 to 31. -/
  | reverseCount (n : BitVec 5)
  deriving DecidableEq, Repr

/-- Bits `[lo + len - 1 : lo]` of a command word (R10). -/
def field (w : Word) (lo len : Nat) : BitVec len := w.extractLsb' lo len

/-- `op`, bits [31:28] (R70). -/
def opField (w : Word) : BitVec 4 := field w 28 4

/-- Format N: no operand, bits [27:0] zero (R71). -/
def decodeFormatN (w : Word) (i : Instr) : Except DecodeError Instr :=
  if field w 0 28 = 0 then .ok i else .error (.nonZeroField (opField w))

/-- Format B: `byte` in [7:0], bits [27:8] zero (R71). -/
def decodeFormatB (w : Word) (mk : BitVec 8 → Instr) : Except DecodeError Instr :=
  if field w 8 20 = 0 then .ok (mk (field w 0 8)) else .error (.nonZeroField (opField w))

/-- Format M: `start` in [23:12], `len` in [11:0], bits [27:24] zero (R71). -/
def decodeFormatM (w : Word) (mk : BitVec 12 → BitVec 12 → Instr) : Except DecodeError Instr :=
  if field w 24 4 = 0 then .ok (mk (field w 12 12) (field w 0 12)) else .error (.nonZeroField (opField w))

/-- Format R: `n` in [20:16], `value` in [15:0], bits [27:21] zero, and `n <= 16` (R71, R72). -/
def decodeFormatR (w : Word) (mk : BitVec 16 → BitVec 5 → Instr) : Except DecodeError Instr :=
  if field w 21 7 = 0 then
    if (field w 16 5).toNat ≤ 16 then .ok (mk (field w 0 16) (field w 16 5)) else .error (.reverseCount (field w 16 5))
  else .error (.nonZeroField (opField w))

/-- Format P: `kind` in [25:24], `seq` in [23:12], `len` in [11:0], bits [27:26] zero (R71). -/
def decodeFormatP (w : Word) (mk : BitVec 2 → BitVec 12 → BitVec 12 → Instr) : Except DecodeError Instr :=
  if field w 26 2 = 0 then .ok (mk (field w 24 2) (field w 12 12) (field w 0 12))
  else .error (.nonZeroField (opField w))

/-- The opcode map (R72): the command a word encodes, or the reason it is an illegal command. -/
def decode (w : Word) : Except DecodeError Instr :=
  match (opField w).toNat with
  | 1 => decodeFormatN w .crcRst
  | 2 => decodeFormatB w .crcUpd
  | 3 => decodeFormatN w .crcFin
  | 4 => decodeFormatM w .crcCmp
  | 5 => decodeFormatM w .crcX
  | 6 => decodeFormatR w .rev
  | 7 => decodeFormatP w .pktBld
  | _ => .error (.reservedOpcode (opField w))

/-- The word that holds the field `v` with its lowest bit at bit `lo`, and 0 elsewhere (R71). -/
def place {n : Nat} (v : BitVec n) (lo : Nat) : Word := v.setWidth 32 <<< lo

/-- The word of a command: `op` and the fields of its format at their places, every other bit 0 (R71, R72). -/
def encode : Instr → Word
  | .crcRst => place 1#4 28
  | .crcUpd byte => place 2#4 28 ||| place byte 0
  | .crcFin => place 3#4 28
  | .crcCmp start len => place 4#4 28 ||| place start 12 ||| place len 0
  | .crcX start len => place 5#4 28 ||| place start 12 ||| place len 0
  | .rev value n => place 6#4 28 ||| place n 16 ||| place value 0
  | .pktBld kind seq len => place 7#4 28 ||| place kind 24 ||| place seq 12 ||| place len 0

/-- The 32-bit command word of a row of spec/opcode_table.json given as `nbits` bits: bit `i` of the number is line `i`
of `wdata` (R57), and every bit above `nbits` is 0 (notes/assumptions/11.md). -/
def tableWord (nbits w : Nat) : Word := BitVec.ofNat 32 (w % 2 ^ nbits)

/-- What `decode` reads from the table's word (none where it refuses). -/
def decodeTableWord (nbits w : Nat) : Option Instr :=
  match decode (tableWord nbits w) with
  | .ok i => some i
  | .error _ => none

end Sys2Proof
end

