-- ==== Sys2Proof/Machine/CrcFunctions.lean ====
section
/-! DEFINITION. The pure functions of the CRC engine, for an arbitrary configuration (R100 to R107). They read no state
and write none. -/

namespace Sys2Proof.Machine

/-- `crcReset(cfg)` (R101). -/
def crcReset (cfg : CrcConfig) : Half := cfg.init

/-- `reverseBits(value, n)` for `n <= 16` (R103): bit `i` of the source becomes bit `n - 1 - i` of the result. The spec
defines it for no larger `n` and the model uses it for none (U12). -/
def reverseBits (value : Half) (n : Nat) : Half :=
  (List.range n).foldl (fun r i => if value.getLsbD i then r ||| (1#16 <<< (n - 1 - i)) else r) 0#16

/-- One pass of the loop of R102: the accumulator after one data bit. -/
def crcBit (cfg : CrcConfig) (acc : Half) (d : Bool) : Half :=
  let topBit := acc &&& cfg.msbMask
  let acc := acc <<< 1
  let topBit := if d then topBit ^^^ cfg.msbMask else topBit
  if topBit ≠ 0 then acc ^^^ cfg.poly else acc

/-- The data byte as the loop takes it: bit-reversed when `refin` (R102). -/
def dataByte (cfg : CrcConfig) (byte : Byte) : Byte :=
  if cfg.refin then (reverseBits (byte.setWidth 16) 8).setWidth 8 else byte

/-- `crcUpdate(acc, byte, cfg)`: the eight bits from the most to the least significant (R102). -/
def crcUpdate (cfg : CrcConfig) (acc : Half) (byte : Byte) : Half :=
  [7, 6, 5, 4, 3, 2, 1, 0].foldl (fun acc i => crcBit cfg acc ((dataByte cfg byte).getLsbD i)) acc

/-- `crcFinalize(acc, cfg)`: reflect-out over 16 bits, xor-out, mask, in that order (R104). -/
def crcFinalize (cfg : CrcConfig) (acc : Half) : Half :=
  ((if cfg.refout then reverseBits acc 16 else acc) ^^^ cfg.xorout) &&& cfg.mask

/-- `computeCrc(bs, cfg)`; an empty list gives `init` with no finalize, the documented quirk (R106). -/
def computeCrc (cfg : CrcConfig) (bs : List Byte) : Half :=
  match bs with
  | [] => cfg.init
  | _ :: _ => crcFinalize cfg (bs.foldl (crcUpdate cfg) (crcReset cfg))

/-- `xmodemCrc(bs)` (R107). -/
def xmodemCrc (bs : List Byte) : Half := computeCrc xmodemCfg bs

end Sys2Proof.Machine
end

