-- ==== Sys2Proof/Machine/State.lean ====
section
/-! DEFINITION. The state of the block (R20), the host port's transactions and responses (R50, R51), and reset (R40). -/

namespace Sys2Proof.Machine

/-- The byte memory `M` as plain data: the bytes written since the last reset, as (address, byte) pairs with strictly
rising addresses. An address that is not listed holds no value of its own: nothing has written it (R40, U1). -/
abbrev Memory := List Host.Cell

/-- A host transaction (R51): `read addr` is `we = 0`, `write addr data` is `we = 1` with `wdata = data`. -/
inductive Txn
  | read (addr : PortAddr)
  | write (addr : PortAddr) (data : Word)
  deriving DecidableEq, Repr

/-- What the host drives on the port in one step (R50, R51, R170). -/
inductive HostEvent
  /-- `req = 0` and `rst = 0`: no transaction is presented (R166). -/
  | idle
  /-- `req = 1` and `rst = 0`: one transaction, from its request to its `ack` (R51). -/
  | txn (t : Txn)
  /-- `rst = 1` at a clock edge (R170); `abandoned` is the transaction in progress when it strikes, if there is one. -/
  | reset (abandoned : Option Txn)
  deriving DecidableEq, Repr

/-- The response of the `ack` cycle (R51): `Done rdata` or `Fault`. -/
inductive Resp
  | done (rdata : Word)
  | fault
  deriving DecidableEq, Repr

/-- The whole state. The first five fields are the spec's tuple (R20); `resp` is the port's outputs (R50) and `inputs` the
host's side of the port (R12: "A program is a list of host transactions in order"); `memGen` is the MODEL'S OWN field,
which only picks the free bytes of never-written memory (notes/assumptions/4.md). -/
structure State where
  /-- `ACC`, the streaming CRC accumulator (R23). -/
  acc    : Half
  /-- `RES`, the result of the last result-producing command (R24). -/
  res    : Half
  /-- `STATUS.ERR`, the completion code of the last command (R33). -/
  err    : BitVec 3
  /-- `PKT_LEN`, the serialized length of the packet in `PKT`, 0 if none (R25). -/
  pktLen : BitVec 11
  /-- `M`, addresses 0x000 to 0x804 (R35). -/
  mem    : Memory
  /-- The model's own: how many reset events `M` has seen. -/
  memGen : Nat
  /-- What the host will drive on the port, next first. -/
  inputs : List HostEvent
  /-- The response of the last step; `none` if it had no `ack` cycle. -/
  resp   : Option Resp
  deriving DecidableEq, Repr

/-- What stops the machine: nothing. "there is no stuck or halted state" (R160): an access fault is a response of the
port (`Resp.fault`, R157) and a command error a code in `STATUS.ERR` (R152), and after either the block goes on. So no
step raises a fault, and the type has no constructor (safe: nothing is proved by stopping). -/
inductive Fault
  deriving DecidableEq, Repr

/-- Why an instruction has no meaning. -/
inductive Refusal
  /-- Raised only by an arm of `exec` whose command has no meaning yet (safe); every command of this block has one, so
  no arm raises it. -/
  | notModelled (mnemonic : String)
  deriving DecidableEq, Repr

/-- The state right after reset (R40, R170): the registers at the spec's values, no byte of `M` known. `memGen`, `inputs`
and `resp` are the model's (notes/assumptions/1.md, 3.md, 4.md). -/
def State.reset : State :=
  { acc := Config.cfg.init, res := 0, err := 0, pktLen := 0, mem := [], memGen := 0, inputs := [], resp := none }

end Sys2Proof.Machine
end

