-- ==== Sys2Proof/Machine/Flags.lean ====
section
/-! DEFINITION. The completion code, the only status a command leaves (R28, R150), and the words the status registers
read as (R29). -/

namespace Sys2Proof.Machine

/-- How a command ends (R150). -/
inductive Code
  /-- The command completed. -/
  | ok
  /-- `PKT.BLD`: `kind` is 2 or 3, or `len > cap(kind)` (R133). -/
  | invalidPacketRequest
  /-- The word written to `CMD` does not decode (R153). -/
  | illegalCommand
  /-- `CRC.CMP`, `CRC.X`: `start + len > MEM_SIZE` (R154). -/
  | badRange
  deriving DecidableEq, Repr

/-- The 3-bit value of `STATUS.ERR` for each end (R150); 4 to 7 are never written. -/
def codeBits : Code → BitVec 3
  | .ok => 0#3
  | .invalidPacketRequest => 1#3
  | .illegalCommand => 2#3
  | .badRange => 3#3

/-- `STATUS` as the host reads it: bits [2:0] `ERR`, bits [31:3] zero (R29). -/
def statusWord (err : BitVec 3) : Word := err.setWidth 32

/-- `CFG_FLAGS` as the host reads it: bit 0 `REFIN`, bit 1 `REFOUT` (R29). -/
def cfgFlagsWord (c : CrcConfig) : Word :=
  (if c.refin then 1#32 else 0#32) ||| (if c.refout then 2#32 else 0#32)

end Sys2Proof.Machine
end

