-- ==== Sys2Proof/Machine/Ops.lean ====
section
/-! DEFINITION. The named operations over the memory and the registers (R11), the raising of a command error (R152), and
the reset of the block (R170). -/

namespace Sys2Proof.Machine

/-! ### Memory as data -/

/-- The byte listed at address `a`; `none` if nothing has written it since the last reset. -/
def Memory.cell? : Memory → Nat → Option Byte
  | [], _ => none
  | (k, b) :: m, a => if k = a then some b else Memory.cell? m a

/-- The cells of the bytes `bs` laid out from address `a` up. -/
def cellsFrom (a : Nat) : List Byte → Memory
  | [] => []
  | b :: bs => (a, b) :: cellsFrom (a + 1) bs

/-- The memory with the bytes `bs` at addresses `a` to `a + bs.length - 1` and every other address as it was. -/
def Memory.write (m : Memory) (a : Nat) (bs : List Byte) : Memory :=
  m.filter (fun c => decide (c.1 < a)) ++ cellsFrom a bs ++ m.filter (fun c => decide (a + bs.length ≤ c.1))

/-- The cells' addresses are at least `lo`, strictly rising and inside `M`. -/
def risingFrom (lo : Nat) : Memory → Bool
  | [] => true
  | (k, _) :: m => decide (lo ≤ k) && decide (k < Config.memSize) && risingFrom (k + 1) m

/-- The canonical form of a memory: strictly rising addresses, all of `M` (R35). An unlisted address holds no byte, so no
entry can equal what an unlisted address reads as (notes/assumptions/5.md). -/
def Memory.wf (m : Memory) : Bool := risingFrom 0 m

/-! ### State access (R11) -/

/-- `M[a]`: the byte last written, or, where nothing has written it since reset, the free value (R54, U1). -/
def readByte (s : State) (a : Nat) : Byte := (s.mem.cell? a).getD (Config.powerOnByte s.memGen a)

/-- `MemRead(a, n)`: the bytes `M[a], ..., M[a + n - 1]` in that order (R11). -/
def memRead (s : State) (a n : Nat) : List Byte := (List.range n).map fun j => readByte s (a + j)

/-- `MemWrite(a, n, bs)` with `n` the length of `bs` (R11). -/
def memWrite (a : Nat) (bs : List Byte) (s : State) : State := { s with mem := s.mem.write a bs }

/-- `ACC <- v`. -/
def setAcc (v : Half) (s : State) : State := { s with acc := v }

/-- `RES <- v`. -/
def setRes (v : Half) (s : State) : State := { s with res := v }

/-- `PKT_LEN <- v`. -/
def setPktLen (v : BitVec 11) (s : State) : State := { s with pktLen := v }

/-- `STATUS.ERR <- code` (R33). -/
def setErr (c : Code) (s : State) : State := { s with err := codeBits c }

/-! ### How a command ends -/

/-- A command that does not raise writes `STATUS.ERR <- 0` as its last effect (R152). -/
def complete (s : State) : Host.Outcome State Fault Refusal := .next (setErr .ok s)

/-- `raise E`: `STATUS.ERR <- code(E)` and nothing else is written; the command ends (R152). This is all of the "entry"
of an error (R159): there is no vector, no saved register and no mode. There is no return beside it, because there is
nothing to restore (R160): the next command's own code replaces this one. -/
def raise (c : Code) (s : State) : Host.Outcome State Fault Refusal := .next (setErr c s)

/-! ### The port's side of a step -/

/-- The step ends in an `ack` cycle with response `r` (R51). -/
def respond (r : Resp) (s : State) : State := { s with resp := some r }

/-- The step has no `ack` cycle (R50). -/
def noAck (s : State) : State := { s with resp := none }

/-- A clock edge with `rst = 1` (R170): the registers take the values of R40, no transaction is acknowledged, and every byte
of `M` is unknown until it is written again. A transaction in progress is abandoned, so it is no argument: its register
effects are replaced, and what it may have written lies in memory that is unknown now. -/
def resetBlock (s : State) : State :=
  { s with
    acc := State.reset.acc, res := State.reset.res, err := State.reset.err, pktLen := State.reset.pktLen,
    mem := [], memGen := s.memGen + 1, resp := none }

end Sys2Proof.Machine
end

