-- ==== Sys2Proof/Machine/Operands.lean ====
section
/-! DEFINITION. The operand forms (R73): the memory range of `CRC.CMP` and `CRC.X`, the bit count of `REV`, the kind,
sequence number and payload of `PKT.BLD`. -/

namespace Sys2Proof.Machine

/-- A range is legal when `start + len <= MEM_SIZE`, in natural numbers (R108). -/
def rangeLegal (start len : BitVec 12) : Bool := decide (start.toNat + len.toNat ≤ Config.memSize)

/-- The bytes of a legal range, in ascending address (R106, R108). -/
def rangeBytes (s : State) (start len : BitVec 12) : List Byte := memRead s start.toNat len.toNat

/-- `n` of `REV` is a bit count when it is at most 16 (R72, R73). -/
def countLegal (n : BitVec 5) : Bool := decide (n.toNat ≤ 16)

/-- The `kind` field: 0 SHORT, 1 LONG; 2 and 3 are unrecognized (R130). -/
def kindOf (kind : BitVec 2) : Option PacketKind :=
  match kind.toNat with
  | 0 => some .short
  | 1 => some .long
  | _ => none

/-- `cap(kind)` (R130). -/
def capacity : PacketKind → Nat
  | .short => Config.capShort
  | .long => Config.capLong

/-- `marker(kind)` (R130): `SOH` or `STX`. -/
def marker : PacketKind → Byte
  | .short => WireCode.soh.byte
  | .long => WireCode.stx.byte

/-- The serialized length `3 + cap + 2` (R130). -/
def serializedLen (k : PacketKind) : Nat := Config.hdrLen + capacity k + Config.trlLen

/-- `seq mod 256` (R135). -/
def seqByte (seq : BitVec 12) : Byte := BitVec.ofNat 8 (seq.toNat % 256)

/-- `0xFF - (seq mod 256)` (R131). -/
def seqComplement (seq : BitVec 12) : Byte := BitVec.ofNat 8 (0xFF - seq.toNat % 256)

/-- The payload of a build: the `len` bytes from `PAY_BASE` (R131). -/
def payloadBytes (s : State) (len : BitVec 12) : List Byte := memRead s Config.payBase len.toNat

end Sys2Proof.Machine
end

