-- ==== Sys2Proof/Machine/CrcEngine.lean ====
section
/-! DEFINITION. The meanings of the six CRC engine commands (R110 to R116). -/

namespace Sys2Proof.Machine

/-- `CRC.RST` (R110). -/
def execCrcRst (s : State) : Host.Outcome State Fault Refusal :=
  complete (setAcc (crcReset Config.cfg) s)

/-- `CRC.UPD byte` (R111). -/
def execCrcUpd (byte : BitVec 8) (s : State) : Host.Outcome State Fault Refusal :=
  complete (setAcc (crcUpdate Config.cfg s.acc byte) s)

/-- `CRC.FIN`: `ACC` is unchanged (R112). -/
def execCrcFin (s : State) : Host.Outcome State Fault Refusal :=
  complete (setRes (crcFinalize Config.cfg s.acc) s)

/-- `CRC.CMP start, len`, with the configuration `CFG` and a private accumulator (R31, R113). -/
def execCrcCmp (start len : BitVec 12) (s : State) : Host.Outcome State Fault Refusal :=
  if rangeLegal start len then complete (setRes (computeCrc Config.cfg (rangeBytes s start len)) s)
  else raise .badRange s

/-- `CRC.X start, len`, with `XMODEM_CFG` whatever `CFG` is, and a private accumulator (R31, R114). -/
def execCrcX (start len : BitVec 12) (s : State) : Host.Outcome State Fault Refusal :=
  if rangeLegal start len then complete (setRes (xmodemCrc (rangeBytes s start len)) s)
  else raise .badRange s

/-- `REV value, n` (R115). `n > 16` never comes from a decoded word (R72); the meaning answers it as the block answers
such a word, with `IllegalCommand` (R74, R153; notes/assumptions/8.md). -/
def execRev (value : BitVec 16) (n : BitVec 5) (s : State) : Host.Outcome State Fault Refusal :=
  if countLegal n then complete (setRes (reverseBits value n.toNat) s)
  else raise .illegalCommand s

end Sys2Proof.Machine
end

