-- ==== Sys2Proof/Machine/Framer.lean ====
section
/-! DEFINITION. The packet layout (R80, R131, R132) and the meaning of the framer's one command, `PKT.BLD`. -/

namespace Sys2Proof.Machine

/-- The block of a packet: the payload left-aligned, then zero bytes up to `cap` (R80, R131). -/
def paddedBlock (k : PacketKind) (payload : List Byte) : List Byte :=
  payload ++ List.replicate (capacity k - payload.length) 0#8

/-- The two CRC bytes of the trailer, high byte first (R56). -/
def crcTrailer (crc : Half) : List Byte := [crc.extractLsb' 8 8, crc.extractLsb' 0 8]

/-- `build(kind, seq, payload)`: the packet as a list of bytes (R131, R132). The CRC is always XMODEM's. -/
def buildPacket (k : PacketKind) (seq : BitVec 12) (payload : List Byte) : List Byte :=
  [marker k, seqByte seq, seqComplement seq] ++ paddedBlock k payload ++ crcTrailer (xmodemCrc (paddedBlock k payload))

/-- A successful build: the packet into `PKT`, its length into `PKT_LEN` (R131). -/
def storePacket (k : PacketKind) (seq len : BitVec 12) (s : State) : State :=
  setPktLen (BitVec.ofNat 11 (serializedLen k)) (memWrite Config.pktBase (buildPacket k seq (payloadBytes s len)) s)

/-- `PKT.BLD kind, seq, len`: `kind` is tested before `len` (R131, R133). -/
def execPktBld (kind : BitVec 2) (seq len : BitVec 12) (s : State) : Host.Outcome State Fault Refusal :=
  match kindOf kind with
  | none => raise .invalidPacketRequest s
  | some k =>
    if len.toNat > capacity k then raise .invalidPacketRequest s else complete (storePacket k seq len s)

end Sys2Proof.Machine
end

