-- ==== Sys2Proof/Machine/Dispatch.lean ====
section
/-! DEFINITION. One arm per command (R72). -/

namespace Sys2Proof.Machine

def exec (i : Instr) (s : State) : Host.Outcome State Fault Refusal :=
  match i with
  | .crcRst => Sys2Proof.Machine.execCrcRst s
  | .crcUpd byte => Sys2Proof.Machine.execCrcUpd byte s
  | .crcFin => Sys2Proof.Machine.execCrcFin s
  | .crcCmp start len => Sys2Proof.Machine.execCrcCmp start len s
  | .crcX start len => Sys2Proof.Machine.execCrcX start len s
  | .rev value n => Sys2Proof.Machine.execRev value n s
  | .pktBld kind seq len => Sys2Proof.Machine.execPktBld kind seq len s

end Sys2Proof.Machine
end

