-- ==== Sys2Proof/Machine/Port.lean ====
section
/-! DEFINITION. The host port: the address map (R52), the registers as the host reads them (R29, R55), the memory
accesses (R53, R54), the access faults (R157) and the write to `CMD` that runs a command (R30). -/

namespace Sys2Proof.Machine

/-- The port output `ack` of the last step (R50). -/
def ackPin (s : State) : Bool := s.resp.isSome

/-- The output `err` in the `ack` cycle: 1 access fault, 0 done (R50). -/
def errPin : Resp → Bool
  | .done _ => false
  | .fault => true

/-- The output `rdata` in the `ack` cycle; zero with an access fault (R50, R157). -/
def rdataPin : Resp → Word
  | .done d => d
  | .fault => 0

/-- The readable registers (R29). -/
inductive Reg
  | status | res | acc | pktLen | cfgPoly | cfgInit | cfgXorout | cfgMsb | cfgMask | cfgFlags
  deriving DecidableEq, Repr

/-- What a port address names (R52). -/
inductive Location
  /-- A byte of `PAY`: host read and write. -/
  | pay
  /-- A byte of `PKT`: host read only. -/
  | pkt
  /-- `CMD`: host write only. -/
  | cmd
  /-- A register the host reads and does not write. -/
  | reg (r : Reg)
  /-- Nothing: every access is an access fault. -/
  | nothing
  deriving DecidableEq, Repr

/-- The register map (R29): address and register. -/
def regMap : List (Nat × Reg) :=
  [(0x1001, .status), (0x1002, .res), (0x1003, .acc), (0x1004, .pktLen), (0x1008, .cfgPoly), (0x1009, .cfgInit),
   (0x100A, .cfgXorout), (0x100B, .cfgMsb), (0x100C, .cfgMask), (0x100D, .cfgFlags)]

/-- The map of all 8192 port addresses (R52). -/
def locate (a : PortAddr) : Location :=
  if a.toNat < Config.pktBase then .pay
  else if a.toNat < Config.memSize then .pkt
  else if a = Config.cmdAddr then .cmd
  else
    match regMap.lookup a.toNat with
    | some r => .reg r
    | none => .nothing

/-- A register's value on `rdata`: zero above its width (R29, R55). -/
def readReg (r : Reg) (s : State) : Word :=
  match r with
  | .status => statusWord s.err
  | .res => s.res.setWidth 32
  | .acc => s.acc.setWidth 32
  | .pktLen => s.pktLen.setWidth 32
  | .cfgPoly => Config.cfg.poly.setWidth 32
  | .cfgInit => Config.cfg.init.setWidth 32
  | .cfgXorout => Config.cfg.xorout.setWidth 32
  | .cfgMsb => Config.cfg.msbMask.setWidth 32
  | .cfgMask => Config.cfg.mask.setWidth 32
  | .cfgFlags => cfgFlagsWord Config.cfg

/-- The response to a host read (R54, R55, R157). No read has a side effect. -/
def readResponse (a : PortAddr) (s : State) : Resp :=
  match locate a with
  | .pay => .done ((readByte s a.toNat).setWidth 32)
  | .pkt => .done ((readByte s a.toNat).setWidth 32)
  | .reg r => .done (readReg r s)
  | .cmd => .fault
  | .nothing => .fault

/-- A word written to `CMD` (R30, R72): the command it encodes runs from start to end, and a word that encodes none raises
`IllegalCommand` (R153). -/
def runCommand (w : Word) (s : State) : Host.Outcome State Fault Refusal :=
  match decode w with
  | .ok i => exec i s
  | .error _ => raise .illegalCommand s

/-- A host write (R53, R30, R157). `PAY` takes `wdata[7:0]`; `rdata` is zero in the `ack` cycle of every write (R50). -/
def serveWrite (a : PortAddr) (d : Word) (s : State) : Host.Outcome State Fault Refusal :=
  match locate a with
  | .pay => .next (respond (.done 0) (memWrite a.toNat [d.extractLsb' 0 8] s))
  | .cmd => runCommand d (respond (.done 0) s)
  | .pkt => .next (respond .fault s)
  | .reg _ => .next (respond .fault s)
  | .nothing => .next (respond .fault s)

/-- One event of the port (R51, R166, R170). -/
def serve (e : HostEvent) (s : State) : Host.Outcome State Fault Refusal :=
  match e with
  | .idle => .next (noAck s)
  | .reset _ => .next (resetBlock s)
  | .txn (.read a) => .next (respond (readResponse a s) s)
  | .txn (.write a d) => serveWrite a d s

/-- The host takes back the event just served. -/
def takeInput (s : State) (rest : List HostEvent) : State := { s with inputs := rest }

end Sys2Proof.Machine
end

