-- ==== Sys2Proof/Machine/Step.lean ====
section
/-! DEFINITION. One step: one event of the host port, served whole (R51, R60), and the placing of a command word where
the next step takes it. -/

namespace Sys2Proof.Machine

/-- The next event of the port is served; where the host drives nothing more, the block "holds its state and does
nothing" (R166). -/
def step (s : State) : Host.Outcome State Fault Refusal :=
  match s.inputs with
  | [] => .next (noAck s)
  | e :: rest => serve e (takeInput s rest)

/-- The host's next transaction is the write of the command word to `CMD` (R12, R70; notes/assumptions/11.md). -/
def State.withFetchWord (s : State) (nbits w : Nat) : State :=
  { s with inputs := .txn (.write Config.cmdAddr (tableWord nbits w)) :: s.inputs }

end Sys2Proof.Machine
end

