-- ==== Sys2Proof/Safety.lean ====
section
/-! DEFINITION. The terms in which claims about the block are made: the host's write of a command word, the invariant of
every step, and the host's duty towards never-written memory (R172, R173). -/

namespace Sys2Proof.Machine

/-- The host event that writes the word `w` to `CMD` (R12). -/
def cmdWrite (w : Word) : HostEvent := .txn (.write Config.cmdAddr w)

/-- The packet buffer holds the packet of `k`, `seq` and `payload`, and `PKT_LEN` is its length (R25, R36, R131). -/
def HoldsPacket (s : State) (k : PacketKind) (seq : BitVec 12) (payload : List Byte) : Prop :=
  payload.length ≤ capacity k ∧ s.pktLen.toNat = serializedLen k ∧
    memRead s Config.pktBase (serializedLen k) = buildPacket k seq payload

/-- What every step keeps: the memory's canonical form, the model's choice (notes/assumptions/5.md), inside `M` (R35); no
completion code above 3 (R33, U7); and a packet buffer that holds no packet or one whole packet of the length `PKT_LEN`
says (R25, R138). -/
structure BlockInv (s : State) : Prop where
  memory : s.mem.wf = true
  code   : s.err.toNat ≤ 3
  packet : s.pktLen = 0 ∨ ∃ k seq payload, HoldsPacket s k seq payload

/-- The `n` bytes from `a` have been written since the last reset, so no free byte is among them (R172, R173). -/
def Written (s : State) (a n : Nat) : Prop := ∀ j, j < n → (s.mem.cell? (a + j)).isSome = true

/-- The host has met its duty for command `i`: it has written every byte the command will read (R172). A command that
raises reads nothing (R108, R133). -/
def DutyMet (i : Instr) (s : State) : Prop :=
  match i with
  | .crcRst => True
  | .crcUpd _ => True
  | .crcFin => True
  | .crcCmp start len => rangeLegal start len = true → Written s start.toNat len.toNat
  | .crcX start len => rangeLegal start len = true → Written s start.toNat len.toNat
  | .rev _ _ => True
  | .pktBld kind _ len => ∀ k, kindOf kind = some k → len.toNat ≤ capacity k → Written s Config.payBase len.toNat

end Sys2Proof.Machine
end

