-- ==== Sys2Proof/Certificates/Slice0/Obligations.lean ====
section
/-! DEFINITION. The statements for the provers, from the spec's numbered rules. -/

namespace Sys2Proof.Claims

open Sys2Proof.Machine

/-- Bits `[hi:lo]` of a word as a natural number (R10). -/
def bits (w : Word) (hi lo : Nat) : Nat := w.toNat / 2 ^ lo % 2 ^ (hi + 1 - lo)

/-- The illegal words, as R74 lists them: a reserved opcode, a non-zero `zero` field of the opcode's format (R71), or
`REV` with `n` from 17 to 31. -/
abbrev IllegalWord (w : Word) : Prop :=
  bits w 31 28 = 0 ∨ 8 ≤ bits w 31 28 ∨
  (bits w 31 28 = 1 ∧ bits w 27 0 ≠ 0) ∨ (bits w 31 28 = 2 ∧ bits w 27 8 ≠ 0) ∨ (bits w 31 28 = 3 ∧ bits w 27 0 ≠ 0) ∨
  (bits w 31 28 = 4 ∧ bits w 27 24 ≠ 0) ∨ (bits w 31 28 = 5 ∧ bits w 27 24 ≠ 0) ∨
  (bits w 31 28 = 6 ∧ (bits w 27 21 ≠ 0 ∨ 17 ≤ bits w 20 16)) ∨ (bits w 31 28 = 7 ∧ bits w 27 26 ≠ 0)

/-- A `PKT.BLD` word whose request is invalid: `kind` 2 or 3, or more payload than the kind's capacity (R133). -/
abbrev InvalidRequest (w : Word) : Prop :=
  bits w 31 28 = 7 ∧ (2 ≤ bits w 25 24 ∨ (bits w 25 24 = 0 ∧ 128 < bits w 11 0) ∨ (bits w 25 24 = 1 ∧ 1024 < bits w 11 0))

/-- A range word whose range leaves the memory (R108). -/
abbrev RangeOutside (w : Word) : Prop :=
  (bits w 31 28 = 4 ∨ bits w 31 28 = 5) ∧ 0x805 < bits w 23 12 + bits w 11 0

/-- The addresses the host may read (R52). -/
abbrev HostReads (a : Nat) : Prop := a ≤ 0x804 ∨ (0x1001 ≤ a ∧ a ≤ 0x1004) ∨ (0x1008 ≤ a ∧ a ≤ 0x100D)

/-- The addresses the host may write (R52). -/
abbrev HostWrites (a : Nat) : Prop := a ≤ 0x3FF ∨ a = 0x1000

/-- A recognized `kind` field with its capacity and its marker (R130). -/
abbrev KindRow (kind : BitVec 2) (cap : Nat) (mark : Byte) : Prop :=
  (kind = 0#2 ∧ cap = 128 ∧ mark = 0x01#8) ∨ (kind = 1#2 ∧ cap = 1024 ∧ mark = 0x02#8)

/-- The pseudocode of R102 on natural numbers, `i` data bits left to take, `d i` the value of bit `i`. -/
def updateLoop (msbMask poly : Nat) (d : Nat → Bool) : Nat → Nat → Nat
  | 0, acc => acc
  | i + 1, acc =>
    let topBit := acc &&& msbMask
    let acc := (acc <<< 1) % 2 ^ 16
    let topBit := if d i then topBit ^^^ msbMask else topBit
    updateLoop msbMask poly d i (if topBit ≠ 0 then acc ^^^ poly else acc)

/-- The engine with a `w`-bit accumulator and no truncation to 16 bits inside update (R23): one data bit. -/
def wideBit {w : Nat} (cfg : CrcConfig) (acc : BitVec w) (d : Bool) : BitVec w :=
  let topBit := acc &&& cfg.msbMask.setWidth w
  let topBit := if d then topBit ^^^ cfg.msbMask.setWidth w else topBit
  if topBit ≠ 0 then (acc <<< 1) ^^^ cfg.poly.setWidth w else acc <<< 1

/-- The same engine: one data byte. -/
def wideUpdate {w : Nat} (cfg : CrcConfig) (acc : BitVec w) (byte : Byte) : BitVec w :=
  [7, 6, 5, 4, 3, 2, 1, 0].foldl (fun acc i => wideBit cfg acc ((dataByte cfg byte).getLsbD i)) acc

/-- The same engine: finalize, with the reflect-out reversal over the low 16 bits (R104). -/
def wideFinalize {w : Nat} (cfg : CrcConfig) (acc : BitVec w) : BitVec w :=
  ((if cfg.refout then (reverseBits (acc.setWidth 16) 16).setWidth w else acc) ^^^ cfg.xorout.setWidth w) &&&
    cfg.mask.setWidth w

end Sys2Proof.Claims

open Sys2Proof Sys2Proof.Machine Sys2Proof.Claims

/-! ### Encoding -/

/-- No operand bit is lost: decoding the word of a well-formed command gives the command back (R71, R72). -/
def Obligations.DecodeInvertsEncode : Prop :=
  ∀ i : Instr, i.wf = true → decode (encode i) = .ok i

/-- A word that decodes is the word of its command, and the command is well-formed: every word has one meaning. -/
def Obligations.EncodeInvertsDecode : Prop :=
  ∀ (w : Word) (i : Instr), decode w = .ok i → i.wf = true ∧ encode i = w

/-- R72: a word is of a row exactly when `w & mask == match` (and `w[20:16] <= 16` for `REV`), with the row's fields as
operands; every other word is an illegal command. -/
def Obligations.OpcodeMapDecodes : Prop :=
  ∀ w : Word,
    (decode w = .ok .crcRst ↔ w &&& 0xFFFFFFFF#32 = 0x10000000#32) ∧
    (∀ b, decode w = .ok (.crcUpd b) ↔ w &&& 0xFFFFFF00#32 = 0x20000000#32 ∧ b.toNat = bits w 7 0) ∧
    (decode w = .ok .crcFin ↔ w &&& 0xFFFFFFFF#32 = 0x30000000#32) ∧
    (∀ st l, decode w = .ok (.crcCmp st l) ↔
      w &&& 0xFF000000#32 = 0x40000000#32 ∧ st.toNat = bits w 23 12 ∧ l.toNat = bits w 11 0) ∧
    (∀ st l, decode w = .ok (.crcX st l) ↔
      w &&& 0xFF000000#32 = 0x50000000#32 ∧ st.toNat = bits w 23 12 ∧ l.toNat = bits w 11 0) ∧
    (∀ v n, decode w = .ok (.rev v n) ↔
      w &&& 0xFFE00000#32 = 0x60000000#32 ∧ bits w 20 16 ≤ 16 ∧ n.toNat = bits w 20 16 ∧ v.toNat = bits w 15 0) ∧
    (∀ k q l, decode w = .ok (.pktBld k q l) ↔
      w &&& 0xFC000000#32 = 0x70000000#32 ∧ k.toNat = bits w 25 24 ∧ q.toNat = bits w 23 12 ∧ l.toNat = bits w 11 0) ∧
    ((∃ e, decode w = .error e) ↔
      ¬ (w &&& 0xFFFFFFFF#32 = 0x10000000#32 ∨ w &&& 0xFFFFFF00#32 = 0x20000000#32 ∨
        w &&& 0xFFFFFFFF#32 = 0x30000000#32 ∨ w &&& 0xFF000000#32 = 0x40000000#32 ∨
        w &&& 0xFF000000#32 = 0x50000000#32 ∨ (w &&& 0xFFE00000#32 = 0x60000000#32 ∧ bits w 20 16 ≤ 16) ∨
        w &&& 0xFC000000#32 = 0x70000000#32))

/-- R76: the word of each command as the assembler's table gives it, the default of `REV`, and the rule's examples. -/
def Obligations.AssemblerTableWords : Prop :=
  ((encode .crcRst).toNat = 0x10000000) ∧
  (∀ b, (encode (.crcUpd b)).toNat = 0x20000000 + b.toNat) ∧
  ((encode .crcFin).toNat = 0x30000000) ∧
  (∀ st l, (encode (.crcCmp st l)).toNat = 0x40000000 + st.toNat * 0x1000 + l.toNat) ∧
  (∀ st l, (encode (.crcX st l)).toNat = 0x50000000 + st.toNat * 0x1000 + l.toNat) ∧
  (∀ v n, (encode (.rev v n)).toNat = 0x60000000 + n.toNat * 0x10000 + v.toNat) ∧
  (∀ v, Instr.revDefault v = .rev v 8#5) ∧
  (∀ k q l, (encode (.pktBld k q l)).toNat = 0x70000000 + k.toNat * 0x1000000 + q.toNat * 0x1000 + l.toNat) ∧
  encode (.crcUpd 0x31#8) = 0x20000031#32 ∧ encode (.crcX 0#12 9#12) = 0x50000009#32 ∧
  encode (.crcX 0x403#12 130#12) = 0x50403082#32 ∧ encode (.revDefault 0xA5#16) = 0x600800A5#32 ∧
  encode (.rev 0x1021#16 16#5) = 0x60101021#32 ∧ encode (.pktBld 1#2 1#12 9#12) = 0x71001009#32 ∧
  encode (.pktBld 0#2 0x1FF#12 128#12) = 0x701FF080#32

/-- Sanity: one word of each row, from 95_test_vectors.md, decodes to the command it stands for. -/
def Obligations.VectorWordsDecode : Prop :=
  decode 0x10000000#32 = .ok .crcRst ∧ decode 0x20000039#32 = .ok (.crcUpd 0x39#8) ∧
  decode 0x30000000#32 = .ok .crcFin ∧ decode 0x40800005#32 = .ok (.crcCmp 0x800#12 5#12) ∧
  decode 0x503FE005#32 = .ok (.crcX 0x3FE#12 5#12) ∧ decode 0x600CABCD#32 = .ok (.rev 0xABCD#16 12#5) ∧
  decode 0x710FF400#32 = .ok (.pktBld 1#2 255#12 1024#12)

/-- R74, R153: an illegal word, and only an illegal word, does not decode; written to `CMD` it changes nothing but
`STATUS.ERR`, which becomes 2. The all-zero and the all-ones word are illegal; a word whose operands alone are out of
range is not. -/
def Obligations.IllegalWordSetsCodeTwo : Prop :=
  (∀ w : Word, (∃ e, decode w = .error e) ↔ IllegalWord w) ∧
  (∀ (s : State) (w : Word) (rest : List HostEvent), IllegalWord w → s.inputs = cmdWrite w :: rest →
    step s = .next { s with inputs := rest, resp := some (.done 0), err := 2 }) ∧
  IllegalWord 0x00000000#32 ∧ IllegalWord 0xFFFFFFFF#32 ∧
  (∀ w : Word, InvalidRequest w → bits w 27 26 = 0 → ¬ IllegalWord w) ∧
  (∀ w : Word, RangeOutside w → bits w 27 24 = 0 → ¬ IllegalWord w)

/-! ### A step -/

/-- R30: a write of a word to `CMD` runs the command the word encodes, whole, in that one transaction, which the port
acknowledges; a read of `CMD` is an access fault. -/
def Obligations.CommandWriteRunsCommand : Prop :=
  (∀ (s : State) (w : Word) (i : Instr) (rest : List HostEvent), s.inputs = .txn (.write 0x1000#13 w) :: rest →
    decode w = .ok i → step s = exec i { s with inputs := rest, resp := some (.done 0) }) ∧
  (∀ (s : State) (rest : List HostEvent), s.inputs = .txn (.read 0x1000#13) :: rest →
    step s = .next { s with inputs := rest, resp := some .fault })

/-- R150, R156: the code after a write to `CMD` is that of the first failing check: decoding, then the operands; and an
access fault runs no command, whatever data it carries. -/
def Obligations.CodeOfFirstFailingCheck : Prop :=
  (∀ (s t : State) (w : Word) (rest : List HostEvent), s.inputs = cmdWrite w :: rest → step s = .next t →
    (IllegalWord w → t.err = 2) ∧
    (¬ IllegalWord w → InvalidRequest w → t.err = 1) ∧
    (¬ IllegalWord w → RangeOutside w → t.err = 3) ∧
    (¬ IllegalWord w → ¬ InvalidRequest w → ¬ RangeOutside w → t.err = 0)) ∧
  (∀ (s : State) (a : PortAddr) (d : Word) (rest : List HostEvent), s.inputs = .txn (.write a d) :: rest →
    ¬ HostWrites a.toNat → step s = .next { s with inputs := rest, resp := some .fault })

/-- R152: a command that raises writes its code and nothing else, and the write that carried it is acknowledged without
an access fault; so a non-zero code after a write to `CMD` says that the rest of the state is what it was. -/
def Obligations.FailingCommandChangesOnlyErr : Prop :=
  (∀ (c : Code) (s : State), raise c s = .next { s with err := codeBits c }) ∧
  (∀ (s t : State) (w : Word) (rest : List HostEvent), s.inputs = cmdWrite w :: rest → step s = .next t →
    t.resp = some (.done 0) ∧
    (t.err ≠ 0 → t = { s with inputs := rest, resp := some (.done 0), err := t.err }))

/-- R33: `STATUS.ERR` is written by every command with a code of 0 to 3 that does not depend on what it held, by no other
transaction, and is 0 after reset. -/
def Obligations.ErrWrittenByCommandsOnly : Prop :=
  (∀ (s t : State) (w : Word) (rest : List HostEvent), s.inputs = cmdWrite w :: rest → step s = .next t →
    t.err.toNat ≤ 3 ∧ ∀ e, step { s with err := e } = .next t) ∧
  (∀ (s t : State) (x : Txn) (rest : List HostEvent), s.inputs = .txn x :: rest → (∀ w, x ≠ .write 0x1000#13 w) →
    step s = .next t → t.err = s.err) ∧
  State.reset.err = 0

/-- R28: no command reads `ERR`, so no command's result depends on an earlier command's completion code. -/
def Obligations.CommandsIgnoreErr : Prop :=
  ∀ (i : Instr) (s : State) (e : BitVec 3), exec i { s with err := e } = exec i s

/-- With no transaction on the port the block holds its state. An idle cycle is R166's "between transactions it holds its
state and does nothing"; reading an empty list of events as no transaction is THE MODEL'S INFERENCE
(notes/assumptions/2.md); and `resp := none`, no `ack` and no response kept from an earlier step, is R50's `ack` in the form
THE MODEL CHOSE to hold it (notes/assumptions/3.md). -/
def Obligations.IdleBlockHoldsState : Prop :=
  ∀ s : State, (s.inputs = [] ∨ ∃ rest, s.inputs = .idle :: rest) →
    step s = .next { s with inputs := s.inputs.tail, resp := none }

/-- R160: no error makes the block stop: every step from every state has a next state; and the code of an earlier
command is replaced by the next command's own. -/
def Obligations.BlockNeverStops : Prop :=
  (∀ s : State, ∃ t, step s = .next t) ∧
  (∀ (s : State) (w : Word) (rest : List HostEvent) (e : BitVec 3), s.inputs = cmdWrite w :: rest →
    step { s with err := e } = step s)

/-! ### The CRC engine's functions -/

/-- R102: `crcUpdate` computes what the rule's pseudocode computes, for every configuration, accumulator and byte. -/
def Obligations.UpdateRefinesPseudocode : Prop :=
  ∀ (cfg : CrcConfig) (acc : Half) (byte : Byte),
    (crcUpdate cfg acc byte).toNat =
      updateLoop cfg.msbMask.toNat cfg.poly.toNat
        (fun i => if cfg.refin then byte.getLsbD (7 - i) else byte.getLsbD i) 8 acc.toNat

/-- R104: bit `i` of the finalized value: reflected over 16 bits if `refout`, then xor-out, then mask. -/
def Obligations.FinalizeBitByBit : Prop :=
  ∀ (cfg : CrcConfig) (acc : Half) (i : Nat), i < 16 →
    (crcFinalize cfg acc).getLsbD i =
      (((if cfg.refout then acc.getLsbD (15 - i) else acc.getLsbD i) ^^ cfg.xorout.getLsbD i) && cfg.mask.getLsbD i)

/-- R106: an empty list gives `init` with no finalize; any other is reset, update over every byte in order, finalize. -/
def Obligations.ComputeCrcKeepsQuirk : Prop :=
  ∀ cfg : CrcConfig, computeCrc cfg [] = cfg.init ∧
    ∀ (b : Byte) (bs : List Byte),
      computeCrc cfg (b :: bs) = crcFinalize cfg (List.foldl (crcUpdate cfg) (crcUpdate cfg cfg.init b) bs)

/-- R107: `xmodemCrc` is `computeCrc` with the XMODEM configuration; the empty list gives 0x0000, "123456789" 0x31C3. -/
def Obligations.XmodemCheckValue : Prop :=
  (∀ bs, xmodemCrc bs = computeCrc ⟨0x1021#16, 0x0000#16, 0x0000#16, 0x8000#16, 0xFFFF#16, false, false⟩ bs) ∧
  xmodemCrc [] = 0x0000#16 ∧
  xmodemCrc [0x31#8, 0x32#8, 0x33#8, 0x34#8, 0x35#8, 0x36#8, 0x37#8, 0x38#8, 0x39#8] = 0x31C3#16

/-- 95_test_vectors.md section 2 (the spec's own inference): an XMODEM update depends on accumulator and byte only through
`acc xor (byte << 8)`. -/
def Obligations.UpdateDependsOnXor : Prop :=
  ∀ (acc : Half) (byte : Byte), crcUpdate xmodemCfg acc byte = crcUpdate xmodemCfg (acc ^^^ (byte.setWidth 16 <<< 8)) 0#8

/-- 40_crc_engine.md section 2 and 41_packet_framer.md section 2 (the spec's own inferences): leading zero bytes do not
change an XMODEM CRC, and any number of zero bytes has CRC 0x0000. -/
def Obligations.ZeroBytesInvisible : Prop :=
  (∀ bs, xmodemCrc (0#8 :: bs) = xmodemCrc bs) ∧ ∀ n, xmodemCrc (List.replicate n 0#8) = 0x0000#16

/-- 10_state.md section 2 (the spec's own inference on R23): for every configuration and every non-empty byte list, an
accumulator of any width of at least 16 bits gives the same finalized result as the 16-bit one. -/
def Obligations.WidthDoesNotMatter : Prop :=
  ∀ (w : Nat) (cfg : CrcConfig) (b : Byte) (bs : List Byte), 16 ≤ w →
    wideFinalize cfg (List.foldl (wideUpdate cfg) (cfg.init.setWidth w) (b :: bs)) =
      (computeCrc cfg (b :: bs)).setWidth w

/-! ### The CRC engine's commands -/

/-- R110: `ACC` takes `init`, twice is the same as once, and reset leaves the same value. -/
def Obligations.CrcRstResetsAcc : Prop :=
  encode .crcRst = 0x10000000#32 ∧
  (∀ s : State, exec .crcRst s = .next { s with acc := 0x0000#16, err := 0 }) ∧
  (∀ s t : State, exec .crcRst s = .next t → exec .crcRst t = .next t) ∧
  State.reset.acc = 0x0000#16

/-- R111, with the rule's examples. -/
def Obligations.CrcUpdFeedsOneByte : Prop :=
  (∀ b, (encode (.crcUpd b)).toNat = 0x20000000 + b.toNat) ∧
  (∀ (s : State) (b : Byte), exec (.crcUpd b) s = .next { s with acc := crcUpdate xmodemCfg s.acc b, err := 0 }) ∧
  (∀ s : State, s.acc = 0x0000#16 → exec (.crcUpd 0x31#8) s = .next { s with acc := 0x2672#16, err := 0 }) ∧
  (∀ s : State, s.acc = 0x8000#16 → exec (.crcUpd 0x00#8) s = .next { s with acc := 0x9188#16, err := 0 }) ∧
  (∀ s : State, s.acc = 0xFFFF#16 → exec (.crcUpd 0xFF#8) s = .next { s with acc := 0xFF00#16, err := 0 })

/-- R112: `RES` takes the finalized accumulator and `ACC` keeps its value; straight after `CRC.RST` the result is the
finalized `init`; the rule's example. -/
def Obligations.CrcFinFinalizesIntoRes : Prop :=
  encode .crcFin = 0x30000000#32 ∧
  (∀ s : State, exec .crcFin s = .next { s with res := crcFinalize xmodemCfg s.acc, err := 0 }) ∧
  (∀ s t : State, exec .crcRst s = .next t →
    exec .crcFin t = .next { t with res := crcFinalize xmodemCfg xmodemCfg.init, err := 0 }) ∧
  (∀ s : State, s.acc = 0x31C3#16 → exec .crcFin s = .next { s with res := 0x31C3#16, err := 0 })

/-- R108, R113: a legal range gives `RES` the CRC of its bytes with `CFG`; another raises `BadRange` and writes nothing
else; an empty legal range gives `CFG.init`. -/
def Obligations.CrcCmpComputesRangeCrc : Prop :=
  (∀ st l, (encode (.crcCmp st l)).toNat = 0x40000000 + st.toNat * 0x1000 + l.toNat) ∧
  (∀ (s : State) (st l : BitVec 12), st.toNat + l.toNat ≤ 0x805 →
    exec (.crcCmp st l) s =
      .next { s with
        res := computeCrc Config.cfg ((List.range l.toNat).map fun j => readByte s (st.toNat + j)), err := 0 }) ∧
  (∀ (s : State) (st l : BitVec 12), 0x805 < st.toNat + l.toNat → exec (.crcCmp st l) s = .next { s with err := 3 }) ∧
  (∀ (s : State) (st : BitVec 12), st.toNat ≤ 0x805 →
    exec (.crcCmp st 0#12) s = .next { s with res := Config.cfg.init, err := 0 }) ∧
  (∀ s : State, (∀ j, j < 9 → readByte s j = BitVec.ofNat 8 (0x31 + j)) →
    exec (.crcCmp 0#12 9#12) s = .next { s with res := 0x31C3#16, err := 0 })

/-- R108, R114: as `CRC.CMP`, with the XMODEM configuration; the corner cases of R108's own examples. -/
def Obligations.CrcXComputesRangeCrc : Prop :=
  (∀ st l, (encode (.crcX st l)).toNat = 0x50000000 + st.toNat * 0x1000 + l.toNat) ∧
  (∀ (s : State) (st l : BitVec 12), st.toNat + l.toNat ≤ 0x805 →
    exec (.crcX st l) s =
      .next { s with res := xmodemCrc ((List.range l.toNat).map fun j => readByte s (st.toNat + j)), err := 0 }) ∧
  (∀ (s : State) (st l : BitVec 12), 0x805 < st.toNat + l.toNat → exec (.crcX st l) s = .next { s with err := 3 }) ∧
  (∀ s : State, exec (.crcX 0x805#12 0#12) s = .next { s with res := 0x0000#16, err := 0 }) ∧
  (∀ s : State, exec (.crcX 0x806#12 0#12) s = .next { s with err := 3 }) ∧
  (∀ s : State, (∀ j, j < 9 → readByte s j = BitVec.ofNat 8 (0x31 + j)) →
    exec (.crcX 0#12 9#12) s = .next { s with res := 0x31C3#16, err := 0 })

/-- R103, R115: `REV` reverses the low `n` bits: bit `i` of the result is bit `n - 1 - i` of `value` for `i < n`, and the
bits at and above `n` are zero; `n` from 17 to 31 is no command. -/
def Obligations.RevReversesLowBits : Prop :=
  (∀ v n, (encode (.rev v n)).toNat = 0x60000000 + n.toNat * 0x10000 + v.toNat) ∧
  (∀ (s : State) (v : BitVec 16) (n : BitVec 5), n.toNat ≤ 16 →
    ∃ r : Half, exec (.rev v n) s = .next { s with res := r, err := 0 } ∧
      r = reverseBits v n.toNat ∧
      ∀ i, r.getLsbD i = (decide (i < n.toNat) && v.getLsbD (n.toNat - 1 - i))) ∧
  (∀ (v : BitVec 16) (n : BitVec 5), 16 < n.toNat → decode (encode (.rev v n)) = .error (.reverseCount n))

/-- R31: the range commands and the build use a private accumulator: they leave `ACC` as it is, and nothing they do
depends on it. -/
def Obligations.RangeAndBuildIgnoreAcc : Prop :=
  ∀ (i : Instr) (s t : State) (v : Half),
    ((∃ st l, i = .crcCmp st l) ∨ (∃ st l, i = .crcX st l) ∨ ∃ k q l, i = .pktBld k q l) →
    exec i s = .next t → t.acc = s.acc ∧ exec i { s with acc := v } = .next { t with acc := v }

/-- The frame of the six CRC engine commands (40_crc_engine.md section 2): no byte of `M`, not `PKT_LEN` and not the port;
`ACC` only by `CRC.RST` and `CRC.UPD`; `RES` only by `CRC.FIN`, `CRC.CMP`, `CRC.X` and `REV`, and not when they raise. -/
def Obligations.EngineCommandsFrame : Prop :=
  ∀ (i : Instr) (s t : State), (∀ k q l, i ≠ .pktBld k q l) → exec i s = .next t →
    t.mem = s.mem ∧ (∀ a, readByte t a = readByte s a) ∧ t.pktLen = s.pktLen ∧
    t.memGen = s.memGen ∧ t.inputs = s.inputs ∧ t.resp = s.resp ∧
    (i ≠ .crcRst → (∀ b, i ≠ .crcUpd b) → t.acc = s.acc) ∧
    (i = .crcRst ∨ (∃ b, i = .crcUpd b) ∨ t.err ≠ 0 → t.res = s.res)

/-- 95_test_vectors.md section 3 (the spec's own inference): the commands `CRC.RST`, `CRC.UPD` for each byte, `CRC.FIN`,
written to `CMD` one after the other, leave in `RES` the XMODEM CRC of the bytes, from every state. -/
def Obligations.StreamingGivesXmodemCrc : Prop :=
  ∀ (s : State) (bs : List Byte) (rest : List HostEvent),
    s.inputs = cmdWrite 0x10000000#32 ::
      (bs.map (fun b => cmdWrite (encode (.crcUpd b))) ++ cmdWrite 0x30000000#32 :: rest) →
    ∃ t : State, Sys2Proof.core.run (bs.length + 2) s = .next t ∧
      t.res = xmodemCrc bs ∧ t.err = 0 ∧ t.inputs = rest ∧ t.mem = s.mem ∧ t.pktLen = s.pktLen

/-! ### The framer -/

/-- R80, R130, R131, R134: a successful build, byte by byte: marker, `seq mod 256` and its complement, the payload and its
zero padding, the CRC of the whole block high byte first; `PKT_LEN` and the code; and every byte outside the packet, `ACC`
and `RES` as they were. A failing build writes code 1 and nothing else. -/
def Obligations.BuildLaysOutPacket : Prop :=
  (∀ k q l, (encode (.pktBld k q l)).toNat = 0x70000000 + k.toNat * 0x1000000 + q.toNat * 0x1000 + l.toNat) ∧
  (∀ (s : State) (kind : BitVec 2) (seq len : BitVec 12) (cap : Nat) (mark : Byte),
    KindRow kind cap mark → len.toNat ≤ cap →
    ∃ t : State, exec (.pktBld kind seq len) s = .next t ∧
      t.err = 0 ∧ t.pktLen.toNat = 3 + cap + 2 ∧ t.acc = s.acc ∧ t.res = s.res ∧
      t.memGen = s.memGen ∧ t.inputs = s.inputs ∧ t.resp = s.resp ∧
      readByte t 0x400 = mark ∧
      (readByte t 0x401).toNat = seq.toNat % 256 ∧
      (readByte t 0x402).toNat = 0xFF - seq.toNat % 256 ∧
      (∀ j, j < cap → readByte t (0x403 + j) = if j < len.toNat then readByte s j else 0x00#8) ∧
      (∀ crc, crc = xmodemCrc ((List.range cap).map fun j => readByte t (0x403 + j)) →
        readByte t (0x403 + cap) = crc.extractLsb' 8 8 ∧ readByte t (0x403 + cap + 1) = crc.extractLsb' 0 8) ∧
      (∀ a, a < 0x400 ∨ 0x400 + (3 + cap + 2) ≤ a → readByte t a = readByte s a)) ∧
  (∀ (s : State) (kind : BitVec 2) (seq len : BitVec 12),
    2 ≤ kind.toNat ∨ (kind = 0 ∧ 128 < len.toNat) ∨ (kind = 1 ∧ 1024 < len.toNat) →
    exec (.pktBld kind seq len) s = .next { s with err := 1 })

/-- R133: the two cases of `InvalidPacketRequest`, what they leave, and the boundaries. -/
def Obligations.InvalidBuildLeavesPacket : Prop :=
  (∀ (s : State) (kind : BitVec 2) (seq len : BitVec 12), kind = 2 ∨ kind = 3 →
    exec (.pktBld kind seq len) s = .next { s with err := 1 }) ∧
  (∀ (s : State) (kind : BitVec 2) (seq len : BitVec 12) (cap : Nat) (mark : Byte), KindRow kind cap mark →
    cap < len.toNat → exec (.pktBld kind seq len) s = .next { s with err := 1 }) ∧
  (∀ (s : State) (seq : BitVec 12), ∃ t, exec (.pktBld 0#2 seq 128#12) s = .next t ∧ t.err = 0) ∧
  (∀ (s : State) (seq : BitVec 12), ∃ t, exec (.pktBld 1#2 seq 1024#12) s = .next t ∧ t.err = 0) ∧
  (∀ (s : State) (seq : BitVec 12), exec (.pktBld 0#2 seq 129#12) s = .next { s with err := 1 }) ∧
  (∀ (s : State) (seq : BitVec 12), exec (.pktBld 1#2 seq 1025#12) s = .next { s with err := 1 })

/-- R136: every `seq` and both kinds give a packet of length `3 + capacity + 2` with `byte[1] + byte[2] == 0xFF`; two
builds with the same `kind`, `seq mod 256` and payload bytes leave the same packet and the same `PKT_LEN`, whatever else
the states hold; and a build is idempotent. -/
def Obligations.BuildIsDeterministic : Prop :=
  (∀ (s t : State) (kind : BitVec 2) (seq len : BitVec 12) (cap : Nat) (mark : Byte), KindRow kind cap mark →
    len.toNat ≤ cap → exec (.pktBld kind seq len) s = .next t →
    t.pktLen.toNat = 3 + cap + 2 ∧ (readByte t 0x401).toNat + (readByte t 0x402).toNat = 0xFF) ∧
  (∀ (s₁ s₂ t₁ t₂ : State) (kind : BitVec 2) (seq₁ seq₂ len : BitVec 12) (cap : Nat) (mark : Byte),
    KindRow kind cap mark → len.toNat ≤ cap → seq₁.toNat % 256 = seq₂.toNat % 256 →
    (∀ j, j < len.toNat → readByte s₁ j = readByte s₂ j) →
    exec (.pktBld kind seq₁ len) s₁ = .next t₁ → exec (.pktBld kind seq₂ len) s₂ = .next t₂ →
    t₁.pktLen = t₂.pktLen ∧ ∀ i, i < 3 + cap + 2 → readByte t₁ (0x400 + i) = readByte t₂ (0x400 + i)) ∧
  (∀ (s t : State) (kind : BitVec 2) (seq len : BitVec 12),
    exec (.pktBld kind seq len) s = .next t → exec (.pktBld kind seq len) t = .next t)

/-- 95_test_vectors.md section 4 (the spec's own inference): after every successful build, `CRC.X` over the block and the
trailer together gives `RES = 0x0000`. -/
def Obligations.ResidueIsZero : Prop :=
  ∀ (s t : State) (kind : BitVec 2) (seq len : BitVec 12) (cap : Nat) (mark : Byte), KindRow kind cap mark →
    len.toNat ≤ cap → exec (.pktBld kind seq len) s = .next t →
    exec (.crcX 0x403#12 (BitVec.ofNat 12 (cap + 2))) t = .next { t with res := 0x0000#16, err := 0 }

/-- R81: where the packet buffer holds a packet, its length is `3 + capacity + 2` for the kind its marker names, and its
second and third bytes sum to exactly 255. The premise is the invariant of every step (`StepKeepsInvariant`). -/
def Obligations.PacketComplementPair : Prop :=
  ∀ s : State, BlockInv s → s.pktLen ≠ 0 →
    (readByte s 0x401).toNat + (readByte s 0x402).toNat = 0xFF ∧
    ((readByte s 0x400 = 0x01#8 ∧ s.pktLen.toNat = 3 + 128 + 2) ∨
      (readByte s 0x400 = 0x02#8 ∧ s.pktLen.toNat = 3 + 1024 + 2))

/-- R82: the seven byte codes, and the two of them the block produces, as packet markers. -/
def Obligations.WireCodesAndMarkers : Prop :=
  WireCode.soh.byte = 0x01#8 ∧ WireCode.stx.byte = 0x02#8 ∧ WireCode.eot.byte = 0x04#8 ∧ WireCode.ack.byte = 0x06#8 ∧
  WireCode.nak.byte = 0x15#8 ∧ WireCode.can.byte = 0x18#8 ∧ WireCode.crcMode.byte = 0x43#8 ∧
  ∀ (s t : State) (kind : BitVec 2) (seq len : BitVec 12), exec (.pktBld kind seq len) s = .next t → t.err = 0 →
    readByte t 0x400 = WireCode.soh.byte ∨ readByte t 0x400 = WireCode.stx.byte

/-! ### The port, the memory and the registers -/

/-- R52, R157: which accesses the map allows, and that an access fault changes nothing. -/
def Obligations.AddressMapDecidesFaults : Prop :=
  (∀ (s : State) (a : PortAddr) (rest : List HostEvent), s.inputs = .txn (.read a) :: rest →
    ∃ r, step s = .next { s with inputs := rest, resp := some r } ∧
      (errPin r = false ↔ HostReads a.toNat) ∧ (errPin r = true → rdataPin r = 0)) ∧
  (∀ (s : State) (a : PortAddr) (d : Word) (rest : List HostEvent), s.inputs = .txn (.write a d) :: rest →
    ∃ t r, step s = .next t ∧ t.resp = some r ∧ t.inputs = rest ∧
      (errPin r = false ↔ HostWrites a.toNat) ∧ rdataPin r = 0 ∧
      (errPin r = true → t = { s with inputs := rest, resp := some r }))

/-- R53: a host write to `PAY` changes the byte it names to `d[7:0]` and nothing else. -/
def Obligations.PayloadWriteChangesOneByte : Prop :=
  ∀ (s : State) (a : PortAddr) (d : Word) (rest : List HostEvent), a.toNat ≤ 0x3FF →
    s.inputs = .txn (.write a d) :: rest →
    ∃ t : State, step s = .next t ∧ (readByte t a.toNat).toNat = bits d 7 0 ∧
      (∀ x, x ≠ a.toNat → readByte t x = readByte s x) ∧
      t = { s with inputs := rest, resp := some (.done 0), mem := t.mem }

/-- R54: a host read of memory returns the byte zero-extended and changes nothing. -/
def Obligations.MemoryReadReturnsByte : Prop :=
  ∀ (s : State) (a : PortAddr) (rest : List HostEvent), a.toNat ≤ 0x804 → s.inputs = .txn (.read a) :: rest →
    ∃ v : Word, step s = .next { s with inputs := rest, resp := some (.done v) } ∧ v.toNat = (readByte s a.toNat).toNat

/-- R32, R55: a host read of a register returns its value zero-extended and changes nothing; the configuration registers
read the XMODEM configuration. -/
def Obligations.RegisterReadReturnsValue : Prop :=
  ∀ (s : State) (a : PortAddr) (n : Nat) (rest : List HostEvent),
    (a, n) ∈ [(0x1001#13, s.err.toNat), (0x1002#13, s.res.toNat), (0x1003#13, s.acc.toNat), (0x1004#13, s.pktLen.toNat),
      (0x1008#13, 0x1021), (0x1009#13, 0x0000), (0x100A#13, 0x0000), (0x100B#13, 0x8000), (0x100C#13, 0xFFFF),
      (0x100D#13, 0)] →
    s.inputs = .txn (.read a) :: rest →
    ∃ v : Word, step s = .next { s with inputs := rest, resp := some (.done v) } ∧ v.toNat = n

/-- 10_state.md section 2 (the table of R22): only these events change `ACC`, `RES` and `PKT_LEN`. -/
def Obligations.RegistersChangeOnlyByTheirWriters : Prop :=
  ∀ s t : State, step s = .next t →
    (t.acc ≠ s.acc → (∃ x rest, s.inputs = .reset x :: rest) ∨
      ∃ w rest, s.inputs = cmdWrite w :: rest ∧ (decode w = .ok .crcRst ∨ ∃ b, decode w = .ok (.crcUpd b))) ∧
    (t.res ≠ s.res → (∃ x rest, s.inputs = .reset x :: rest) ∨
      ∃ w rest, s.inputs = cmdWrite w :: rest ∧ t.err = 0 ∧ (decode w = .ok .crcFin ∨
        (∃ st l, decode w = .ok (.crcCmp st l)) ∨ (∃ st l, decode w = .ok (.crcX st l)) ∨
        ∃ v n, decode w = .ok (.rev v n))) ∧
    (t.pktLen ≠ s.pktLen → (∃ x rest, s.inputs = .reset x :: rest) ∨
      ∃ w rest k q l, s.inputs = cmdWrite w :: rest ∧ decode w = .ok (.pktBld k q l) ∧ t.err = 0)

/-- 10_state.md section 7 and 20_memory.md section 7: a byte of memory changes only by a host write to it in `PAY`, by a
successful build whose packet it lies in, or by a reset. -/
def Obligations.MemoryChangesOnlyByItsWriters : Prop :=
  ∀ (s t : State) (a : Nat), step s = .next t → readByte t a ≠ readByte s a →
    (∃ x rest, s.inputs = .reset x :: rest) ∨
    (∃ p d rest, s.inputs = .txn (.write p d) :: rest ∧ p.toNat = a ∧ a ≤ 0x3FF) ∨
    (∃ w rest k q l, s.inputs = cmdWrite w :: rest ∧ decode w = .ok (.pktBld k q l) ∧ t.err = 0 ∧
      0x400 ≤ a ∧ a < 0x400 + t.pktLen.toNat)

/-- 20_memory.md section 7: a host read of a payload byte returns the byte the host last wrote there, whatever commands,
reads, faults and other writes come between, if no reset does. -/
def Obligations.ReadReturnsLastWrite : Prop :=
  ∀ (s : State) (a : PortAddr) (d : Word) (es rest : List HostEvent), a.toNat ≤ 0x3FF →
    (∀ e, e ∈ es → (∀ x, e ≠ .reset x) ∧ ∀ d', e ≠ .txn (.write a d')) →
    s.inputs = .txn (.write a d) :: (es ++ .txn (.read a) :: rest) →
    ∃ t : State, Sys2Proof.core.run (es.length + 2) s = .next t ∧
      t.resp = some (.done ((d.extractLsb' 0 8).setWidth 32)) ∧ t.inputs = rest

/-! ### Reset and the invariant -/

/-- 10_state.md section 9 and 70_reset_and_hazards.md section 1: the four registers after reset and after a reset event,
which is acknowledged to nobody, whatever transaction it cuts off. -/
def Obligations.ResetGivesRegisterValues : Prop :=
  (State.reset.acc = 0x0000#16 ∧ State.reset.res = 0x0000#16 ∧ State.reset.err = 0 ∧ State.reset.pktLen = 0) ∧
  ∀ (s : State) (x : Option Txn) (rest : List HostEvent), s.inputs = .reset x :: rest →
    ∃ t : State, step s = .next t ∧ t.acc = 0x0000#16 ∧ t.res = 0x0000#16 ∧ t.err = 0 ∧ t.pktLen = 0 ∧
      ackPin t = false ∧ t.inputs = rest

/-- THE MODEL'S CHOICE (notes/assumptions/4.md and 6.md), for R40's "unspecified": after reset and after a reset event no
byte of `M` is listed, and each reads as the free value of the new generation. -/
def Obligations.ResetForgetsMemory : Prop :=
  (∀ a, readByte State.reset a = Config.powerOnByte 0 a) ∧
  ∀ (s t : State) (x : Option Txn) (rest : List HostEvent), s.inputs = .reset x :: rest → step s = .next t →
    ∀ a, t.mem.cell? a = none ∧ readByte t a = Config.powerOnByte (s.memGen + 1) a

/-- The headline: every step from every state keeps the invariant. Its three clauses: no completion code above 3
(10_state.md section 5, R33; 93_implementation_defined.md section 1, U7); the packet buffer holds no packet or one whole
packet with its own CRC trailer, of the length `PKT_LEN` says (10_state.md section 2, R25; 41_packet_framer.md section 2,
R138); and the memory stays canonical, which is THE MODEL'S CHOICE of how `M` is held (notes/assumptions/5.md), with every
listed address inside `M` (10_state.md section 7, R35). -/
def Obligations.StepKeepsInvariant : Prop :=
  ∀ s t : State, BlockInv s → step s = .next t → BlockInv t

/-- The invariant holds after reset: `STATUS.ERR = 0` and `PKT_LEN = 0` are the spec's (10_state.md section 9, R40); that
the memory with nothing listed is canonical is THE MODEL'S CHOICE of how `M` is held (notes/assumptions/5.md). -/
def Obligations.ResetMeetsInvariant : Prop := BlockInv State.reset

/-- THE MODEL'S FREE VALUES DO NOT LEAK (notes/assumptions/4.md, on 70_reset_and_hazards.md section 2): where the host has
written every byte a command reads, the command does the same whatever the never-written bytes hold. -/
def Obligations.FreeBytesDoNotMatter : Prop :=
  ∀ (i : Instr) (s t : State) (g : Nat), DutyMet i s → exec i s = .next t →
    exec i { s with memGen := g } = .next { t with memGen := g }
end

