-- ==== Sys2Proof/Laws/CrcFunctions.lean ====
section
/-! SUPPORT. What the CRC engine's functions compute, bit by bit, and their XMODEM forms (R102 to R107). -/

namespace Sys2Proof.Machine

/-- The loop of R103 after `m` passes. -/
theorem getLsbD_reverseLoop (v : Half) (n : Nat) (hn : n ≤ 16) (i m : Nat) (hm : m ≤ n) :
    ((List.range m).foldl (fun r j => if v.getLsbD j then r ||| (1#16 <<< (n - 1 - j)) else r) 0#16).getLsbD i =
      (decide (i < n) && decide (n - 1 - i < m) && v.getLsbD (n - 1 - i)) := by
  induction m with
  | zero => simp
  | succ m ih =>
    have ih := ih (by omega)
    have grow : n - 1 - i ≠ m → (n - 1 - i < m + 1 ↔ n - 1 - i < m) := by omega
    rw [List.range_succ, List.foldl_append]
    simp only [List.foldl_cons, List.foldl_nil]
    by_cases hv : v.getLsbD m = true
    · simp only [hv, if_true, BitVec.getLsbD_or, ih]
      by_cases hi : i < n
      · by_cases he : n - 1 - i = m
        · have hbit : (1#16 <<< (n - 1 - m)).getLsbD i = true := by
            have : i = n - 1 - m := by omega
            simp [BitVec.getLsbD_shiftLeft, this]; omega
          simp [hbit, hi, he, hv]
        · have hbit : (1#16 <<< (n - 1 - m)).getLsbD i = false := by
            simp [BitVec.getLsbD_shiftLeft, BitVec.getLsbD_one]; omega
          simp [hbit, hi, grow he]
      · have hbit : (1#16 <<< (n - 1 - m)).getLsbD i = false := by
          simp [BitVec.getLsbD_shiftLeft, BitVec.getLsbD_one]; omega
        simp [hbit, hi]
    · rw [if_neg hv, ih]
      by_cases he : n - 1 - i = m
      · simp [he, hv]
      · simp [grow he]

/-- Every bit of `reverseBits(value, n)` (R103). -/
theorem getLsbD_reverseBits (v : Half) (n : Nat) (hn : n ≤ 16) (i : Nat) :
    (reverseBits v n).getLsbD i = (decide (i < n) && v.getLsbD (n - 1 - i)) := by
  rw [reverseBits, getLsbD_reverseLoop v n hn i n (Nat.le_refl n)]
  by_cases hi : i < n
  · simp [hi]; omega
  · simp [hi]

/-- The XMODEM finalize changes nothing (R104). -/
@[simp] theorem crcFinalize_xmodem (acc : Half) : crcFinalize xmodemCfg acc = acc := by
  apply BitVec.eq_of_getLsbD_eq
  intro i hi
  interval_cases i <;> simp [crcFinalize, xmodemCfg]

/-- The XMODEM CRC is the fold of its update, the empty list included (R106, R107). -/
theorem xmodemCrc_eq_foldl (bs : List Byte) : xmodemCrc bs = bs.foldl (crcUpdate xmodemCfg) 0#16 := by
  cases bs with
  | nil => rfl
  | cons b bs => exact crcFinalize_xmodem _

/-- One XMODEM bit step: `fb <- acc[15] ^ d`, shift, then `poly` where `fb` is set (R102). -/
theorem crcBit_xmodem (acc : Half) (d : Bool) :
    crcBit xmodemCfg acc d = (acc <<< 1) ^^^ (if (acc.getLsbD 15 ^^ d) then 0x1021#16 else 0#16) := by
  have h : acc &&& 0x8000#16 = if acc.getLsbD 15 then 0x8000#16 else 0#16 := by
    apply BitVec.eq_of_getLsbD_eq
    intro i hi
    by_cases h : acc.getLsbD 15 <;> interval_cases i <;> simp_all
  unfold crcBit
  simp only [xmodemCfg, h]
  cases d <;> cases acc.getLsbD 15 <;> simp

/-- The XMODEM bit step is linear over exclusive or. -/
theorem crcBit_xmodem_xor (a b : Half) (c d : Bool) :
    crcBit xmodemCfg (a ^^^ b) (c ^^ d) = crcBit xmodemCfg a c ^^^ crcBit xmodemCfg b d := by
  rw [crcBit_xmodem, crcBit_xmodem, crcBit_xmodem, BitVec.shiftLeft_xor_distrib, BitVec.getLsbD_xor]
  generalize a.getLsbD 15 = p, b.getLsbD 15 = q, a <<< 1 = x, b <<< 1 = y
  have swap : x ^^^ (y ^^^ 0x1021#16) = y ^^^ (x ^^^ 0x1021#16) := by
    rw [← BitVec.xor_assoc, BitVec.xor_comm x, BitVec.xor_assoc]
  cases p <;> cases q <;> cases c <;> cases d <;> simp [BitVec.xor_comm, BitVec.xor_assoc, swap]

end Sys2Proof.Machine
end

