-- ==== Sys2Proof/Laws/State.lean ====
section
/-! SUPPORT. One lemma per field per update of State. -/

namespace Sys2Proof.Machine

@[simp] theorem setAcc_acc (v : Half) (s : State) : (setAcc v s).acc = v := rfl
@[simp] theorem setAcc_res (v : Half) (s : State) : (setAcc v s).res = s.res := rfl
@[simp] theorem setAcc_err (v : Half) (s : State) : (setAcc v s).err = s.err := rfl
@[simp] theorem setAcc_pktLen (v : Half) (s : State) : (setAcc v s).pktLen = s.pktLen := rfl
@[simp] theorem setAcc_mem (v : Half) (s : State) : (setAcc v s).mem = s.mem := rfl
@[simp] theorem setAcc_memGen (v : Half) (s : State) : (setAcc v s).memGen = s.memGen := rfl
@[simp] theorem setAcc_inputs (v : Half) (s : State) : (setAcc v s).inputs = s.inputs := rfl
@[simp] theorem setAcc_resp (v : Half) (s : State) : (setAcc v s).resp = s.resp := rfl

@[simp] theorem setRes_acc (v : Half) (s : State) : (setRes v s).acc = s.acc := rfl
@[simp] theorem setRes_res (v : Half) (s : State) : (setRes v s).res = v := rfl
@[simp] theorem setRes_err (v : Half) (s : State) : (setRes v s).err = s.err := rfl
@[simp] theorem setRes_pktLen (v : Half) (s : State) : (setRes v s).pktLen = s.pktLen := rfl
@[simp] theorem setRes_mem (v : Half) (s : State) : (setRes v s).mem = s.mem := rfl
@[simp] theorem setRes_memGen (v : Half) (s : State) : (setRes v s).memGen = s.memGen := rfl
@[simp] theorem setRes_inputs (v : Half) (s : State) : (setRes v s).inputs = s.inputs := rfl
@[simp] theorem setRes_resp (v : Half) (s : State) : (setRes v s).resp = s.resp := rfl

@[simp] theorem setPktLen_acc (v : BitVec 11) (s : State) : (setPktLen v s).acc = s.acc := rfl
@[simp] theorem setPktLen_res (v : BitVec 11) (s : State) : (setPktLen v s).res = s.res := rfl
@[simp] theorem setPktLen_err (v : BitVec 11) (s : State) : (setPktLen v s).err = s.err := rfl
@[simp] theorem setPktLen_pktLen (v : BitVec 11) (s : State) : (setPktLen v s).pktLen = v := rfl
@[simp] theorem setPktLen_mem (v : BitVec 11) (s : State) : (setPktLen v s).mem = s.mem := rfl
@[simp] theorem setPktLen_memGen (v : BitVec 11) (s : State) : (setPktLen v s).memGen = s.memGen := rfl
@[simp] theorem setPktLen_inputs (v : BitVec 11) (s : State) : (setPktLen v s).inputs = s.inputs := rfl
@[simp] theorem setPktLen_resp (v : BitVec 11) (s : State) : (setPktLen v s).resp = s.resp := rfl

@[simp] theorem setErr_acc (c : Code) (s : State) : (setErr c s).acc = s.acc := rfl
@[simp] theorem setErr_res (c : Code) (s : State) : (setErr c s).res = s.res := rfl
@[simp] theorem setErr_err (c : Code) (s : State) : (setErr c s).err = codeBits c := rfl
@[simp] theorem setErr_pktLen (c : Code) (s : State) : (setErr c s).pktLen = s.pktLen := rfl
@[simp] theorem setErr_mem (c : Code) (s : State) : (setErr c s).mem = s.mem := rfl
@[simp] theorem setErr_memGen (c : Code) (s : State) : (setErr c s).memGen = s.memGen := rfl
@[simp] theorem setErr_inputs (c : Code) (s : State) : (setErr c s).inputs = s.inputs := rfl
@[simp] theorem setErr_resp (c : Code) (s : State) : (setErr c s).resp = s.resp := rfl

@[simp] theorem memWrite_acc (a : Nat) (bs : List Byte) (s : State) : (memWrite a bs s).acc = s.acc := rfl
@[simp] theorem memWrite_res (a : Nat) (bs : List Byte) (s : State) : (memWrite a bs s).res = s.res := rfl
@[simp] theorem memWrite_err (a : Nat) (bs : List Byte) (s : State) : (memWrite a bs s).err = s.err := rfl
@[simp] theorem memWrite_pktLen (a : Nat) (bs : List Byte) (s : State) : (memWrite a bs s).pktLen = s.pktLen := rfl
@[simp] theorem memWrite_mem (a : Nat) (bs : List Byte) (s : State) : (memWrite a bs s).mem = s.mem.write a bs := rfl
@[simp] theorem memWrite_memGen (a : Nat) (bs : List Byte) (s : State) : (memWrite a bs s).memGen = s.memGen := rfl
@[simp] theorem memWrite_inputs (a : Nat) (bs : List Byte) (s : State) : (memWrite a bs s).inputs = s.inputs := rfl
@[simp] theorem memWrite_resp (a : Nat) (bs : List Byte) (s : State) : (memWrite a bs s).resp = s.resp := rfl

@[simp] theorem respond_acc (r : Resp) (s : State) : (respond r s).acc = s.acc := rfl
@[simp] theorem respond_res (r : Resp) (s : State) : (respond r s).res = s.res := rfl
@[simp] theorem respond_err (r : Resp) (s : State) : (respond r s).err = s.err := rfl
@[simp] theorem respond_pktLen (r : Resp) (s : State) : (respond r s).pktLen = s.pktLen := rfl
@[simp] theorem respond_mem (r : Resp) (s : State) : (respond r s).mem = s.mem := rfl
@[simp] theorem respond_memGen (r : Resp) (s : State) : (respond r s).memGen = s.memGen := rfl
@[simp] theorem respond_inputs (r : Resp) (s : State) : (respond r s).inputs = s.inputs := rfl
@[simp] theorem respond_resp (r : Resp) (s : State) : (respond r s).resp = some r := rfl

@[simp] theorem noAck_acc (s : State) : (noAck s).acc = s.acc := rfl
@[simp] theorem noAck_res (s : State) : (noAck s).res = s.res := rfl
@[simp] theorem noAck_err (s : State) : (noAck s).err = s.err := rfl
@[simp] theorem noAck_pktLen (s : State) : (noAck s).pktLen = s.pktLen := rfl
@[simp] theorem noAck_mem (s : State) : (noAck s).mem = s.mem := rfl
@[simp] theorem noAck_memGen (s : State) : (noAck s).memGen = s.memGen := rfl
@[simp] theorem noAck_inputs (s : State) : (noAck s).inputs = s.inputs := rfl
@[simp] theorem noAck_resp (s : State) : (noAck s).resp = none := rfl

@[simp] theorem resetBlock_acc (s : State) : (resetBlock s).acc = Config.cfg.init := rfl
@[simp] theorem resetBlock_res (s : State) : (resetBlock s).res = 0 := rfl
@[simp] theorem resetBlock_err (s : State) : (resetBlock s).err = 0 := rfl
@[simp] theorem resetBlock_pktLen (s : State) : (resetBlock s).pktLen = 0 := rfl
@[simp] theorem resetBlock_mem (s : State) : (resetBlock s).mem = [] := rfl
@[simp] theorem resetBlock_memGen (s : State) : (resetBlock s).memGen = s.memGen + 1 := rfl
@[simp] theorem resetBlock_inputs (s : State) : (resetBlock s).inputs = s.inputs := rfl
@[simp] theorem resetBlock_resp (s : State) : (resetBlock s).resp = none := rfl

@[simp] theorem takeInput_acc (s : State) (rest : List HostEvent) : (takeInput s rest).acc = s.acc := rfl
@[simp] theorem takeInput_res (s : State) (rest : List HostEvent) : (takeInput s rest).res = s.res := rfl
@[simp] theorem takeInput_err (s : State) (rest : List HostEvent) : (takeInput s rest).err = s.err := rfl
@[simp] theorem takeInput_pktLen (s : State) (rest : List HostEvent) : (takeInput s rest).pktLen = s.pktLen := rfl
@[simp] theorem takeInput_mem (s : State) (rest : List HostEvent) : (takeInput s rest).mem = s.mem := rfl
@[simp] theorem takeInput_memGen (s : State) (rest : List HostEvent) : (takeInput s rest).memGen = s.memGen := rfl
@[simp] theorem takeInput_inputs (s : State) (rest : List HostEvent) : (takeInput s rest).inputs = rest := rfl
@[simp] theorem takeInput_resp (s : State) (rest : List HostEvent) : (takeInput s rest).resp = s.resp := rfl

/-- The first step's event is the placed command word; nothing else changes. -/
theorem withFetchWord_inputs (s : State) (nbits w : Nat) :
    (s.withFetchWord nbits w).inputs = cmdWrite (tableWord nbits w) :: s.inputs := rfl

end Sys2Proof.Machine
end

