-- ==== Sys2Proof/Laws/Ops.lean ====
section
/-! SUPPORT. What the memory operations do: reading after a write, the canonical form, and the bytes of a range. -/

namespace Sys2Proof.Machine

/-! ### The memory as data -/

theorem cell?_append (m₁ m₂ : Memory) (x : Nat) :
    Memory.cell? (m₁ ++ m₂) x = (Memory.cell? m₁ x).or (Memory.cell? m₂ x) := by
  induction m₁ with
  | nil => simp [Memory.cell?]
  | cons c m ih =>
    obtain ⟨k, b⟩ := c
    by_cases h : k = x <;> simp [Memory.cell?, h, ih]

/-- A filter on addresses hides the addresses it drops and keeps the others. -/
theorem cell?_filter (p : Nat → Bool) (m : Memory) (x : Nat) :
    Memory.cell? (m.filter fun c => p c.1) x = if p x then Memory.cell? m x else none := by
  induction m with
  | nil => simp [Memory.cell?]
  | cons c m ih =>
    obtain ⟨k, b⟩ := c
    by_cases hp : p k = true
    · by_cases hk : k = x
      · subst hk; simp [Memory.cell?, hp]
      · simp [Memory.cell?, hp, hk, ih]
    · by_cases hk : k = x
      · subst hk; simp [hp, ih]
      · simp [Memory.cell?, hp, hk, ih]

theorem cell?_cellsFrom (a : Nat) (bs : List Byte) (x : Nat) :
    Memory.cell? (cellsFrom a bs) x = if a ≤ x then bs[x - a]? else none := by
  induction bs generalizing a with
  | nil => simp [cellsFrom, Memory.cell?]
  | cons b bs ih =>
    by_cases h : a = x
    · subst h; simp [cellsFrom, Memory.cell?]
    · by_cases hle : a ≤ x
      · have : x - a = (x - (a + 1)) + 1 := by omega
        simp [cellsFrom, Memory.cell?, h, ih, hle, this, show a + 1 ≤ x by omega]
      · simp [cellsFrom, Memory.cell?, h, ih, hle, show ¬ a + 1 ≤ x by omega]

/-- Everything a write does to what the memory lists. -/
theorem cell?_write (m : Memory) (a : Nat) (bs : List Byte) (x : Nat) :
    (m.write a bs).cell? x = if a ≤ x ∧ x < a + bs.length then bs[x - a]? else m.cell? x := by
  unfold Memory.write
  rw [cell?_append, cell?_append, cell?_filter (fun k => decide (k < a)), cell?_cellsFrom,
    cell?_filter (fun k => decide (a + bs.length ≤ k))]
  by_cases h₁ : x < a
  · simp [h₁, show ¬ a ≤ x by omega, show ¬ a + bs.length ≤ x by omega]
  · by_cases h₂ : x < a + bs.length
    · simp [h₁, h₂, show a ≤ x by omega, show ¬ a + bs.length ≤ x by omega]
    · simp [h₁, h₂, show a ≤ x by omega, show a + bs.length ≤ x by omega, show bs.length ≤ x - a by omega]

/-! ### The canonical form -/

theorem risingFrom_mono {lo lo' : Nat} (h : lo ≤ lo') (m : Memory) (hm : risingFrom lo' m = true) :
    risingFrom lo m = true := by
  cases m with
  | nil => rfl
  | cons c m =>
    simp only [risingFrom, Bool.and_eq_true, decide_eq_true_eq] at hm ⊢
    exact ⟨⟨by omega, hm.1.2⟩, hm.2⟩

theorem risingFrom_filter (p : Nat → Bool) (lo : Nat) (m : Memory) (hm : risingFrom lo m = true) :
    risingFrom lo (m.filter fun c => p c.1) = true := by
  induction m generalizing lo with
  | nil => rfl
  | cons c m ih =>
    obtain ⟨k, b⟩ := c
    simp only [risingFrom, Bool.and_eq_true, decide_eq_true_eq] at hm
    by_cases hp : p k = true
    · simp [hp, risingFrom, hm.1, ih _ hm.2]
    · simpa [List.filter_cons, hp] using risingFrom_mono (by omega) _ (ih _ hm.2)

/-- A canonical memory whose addresses all lie below `a`, before one whose addresses start at `a`, is canonical. -/
theorem risingFrom_append {a : Nat} (lo : Nat) (m₁ m₂ : Memory) (h₁ : risingFrom lo m₁ = true)
    (hlt : ∀ c ∈ m₁, c.1 < a) (h₂ : risingFrom a m₂ = true) (hlo : lo ≤ a) :
    risingFrom lo (m₁ ++ m₂) = true := by
  induction m₁ generalizing lo with
  | nil => exact risingFrom_mono hlo _ h₂
  | cons c m ih =>
    obtain ⟨k, b⟩ := c
    simp only [risingFrom, Bool.and_eq_true, decide_eq_true_eq] at h₁
    have hk : k < a := hlt (k, b) (by simp)
    simp [risingFrom, h₁.1, ih (k + 1) h₁.2 (fun c hc => hlt c (by simp [hc])) (by omega)]

theorem risingFrom_cellsFrom (a : Nat) (bs : List Byte) (m : Memory) (hb : a + bs.length ≤ Config.memSize)
    (hm : risingFrom (a + bs.length) m = true) : risingFrom a (cellsFrom a bs ++ m) = true := by
  induction bs generalizing a with
  | nil => simpa [cellsFrom] using hm
  | cons b bs ih =>
    simp only [List.length_cons] at hb hm
    have := ih (a + 1) (by omega) (by rwa [show a + 1 + bs.length = a + (bs.length + 1) by omega])
    simp [cellsFrom, risingFrom, this, show a < Config.memSize by omega]

/-- The addresses a filter keeps start where the filter does. -/
theorem risingFrom_filter_le (lo b : Nat) (m : Memory) (hm : risingFrom lo m = true) :
    risingFrom b (m.filter fun c => decide (b ≤ c.1)) = true := by
  induction m generalizing lo with
  | nil => rfl
  | cons c m ih =>
    obtain ⟨k, v⟩ := c
    simp only [risingFrom, Bool.and_eq_true, decide_eq_true_eq] at hm
    by_cases hk : b ≤ k
    · have := risingFrom_filter (fun x => decide (b ≤ x)) (k + 1) m hm.2
      simp [hk, risingFrom, hm.1.2, this]
    · simpa [List.filter_cons, hk] using ih _ hm.2

/-- Every write inside `M` keeps the canonical form. -/
theorem wf_write (m : Memory) (a : Nat) (bs : List Byte) (hm : m.wf = true) (hb : a + bs.length ≤ Config.memSize) :
    (m.write a bs).wf = true := by
  unfold Memory.write Memory.wf
  rw [List.append_assoc]
  refine risingFrom_append (a := a) 0 _ _ (risingFrom_filter (fun k => decide (k < a)) 0 m hm) ?_ ?_ (by omega)
  · intro c hc
    simpa using (List.mem_filter.mp hc).2
  · exact risingFrom_cellsFrom a bs _ hb (risingFrom_filter_le 0 _ m hm)

theorem wf_nil : Memory.wf [] = true := rfl

/-- Below its first address a canonical memory lists nothing. -/
theorem cell?_of_risingFrom {lo x : Nat} (m : Memory) (hm : risingFrom lo m = true) (hx : x < lo) :
    Memory.cell? m x = none := by
  induction m generalizing lo with
  | nil => rfl
  | cons c m ih =>
    obtain ⟨k, b⟩ := c
    simp only [risingFrom, Bool.and_eq_true, decide_eq_true_eq] at hm
    have hkx : k ≠ x := by omega
    have hlt : x < k + 1 := by omega
    simp [Memory.cell?, hkx, ih hm.2 hlt]

theorem risingFrom_ext {lo : Nat} (m₁ m₂ : Memory) (h₁ : risingFrom lo m₁ = true) (h₂ : risingFrom lo m₂ = true)
    (h : ∀ x, Memory.cell? m₁ x = Memory.cell? m₂ x) : m₁ = m₂ := by
  induction m₁ generalizing lo m₂ with
  | nil =>
    cases m₂ with
    | nil => rfl
    | cons c m =>
      have := h c.1
      simp [Memory.cell?] at this
  | cons c m ih =>
    obtain ⟨k, b⟩ := c
    cases m₂ with
    | nil =>
      have := h k
      simp [Memory.cell?] at this
    | cons c' m' =>
      obtain ⟨k', b'⟩ := c'
      simp only [risingFrom, Bool.and_eq_true, decide_eq_true_eq] at h₁ h₂
      have hk : k = k' := by
        rcases Nat.lt_trichotomy k k' with hlt | heq | hgt
        · have hx := h k
          simp [Memory.cell?, show k' ≠ k by omega, cell?_of_risingFrom m' h₂.2 (show k < k' + 1 by omega)] at hx
        · exact heq
        · have hx := h k'
          simp [Memory.cell?, show k ≠ k' by omega, cell?_of_risingFrom m h₁.2 (show k' < k + 1 by omega)] at hx
      subst hk
      have hb : b = b' := by simpa [Memory.cell?] using h k
      subst hb
      congr 1
      refine ih m' h₁.2 h₂.2 fun x => ?_
      by_cases hx : k = x
      · subst hx
        rw [cell?_of_risingFrom m h₁.2 (by omega), cell?_of_risingFrom m' h₂.2 (by omega)]
      · simpa [Memory.cell?, hx] using h x

/-- Canonical memories that list the same bytes are the same data. -/
theorem memory_ext (m₁ m₂ : Memory) (h₁ : m₁.wf = true) (h₂ : m₂.wf = true)
    (h : ∀ x, m₁.cell? x = m₂.cell? x) : m₁ = m₂ := risingFrom_ext m₁ m₂ h₁ h₂ h

/-! ### Reading -/

/-- A byte reads as the memory lists it, and only the memory and the generation of its free bytes matter. -/
theorem readByte_congr {s t : State} {x : Nat} (hm : s.mem.cell? x = t.mem.cell? x) (hg : s.memGen = t.memGen) :
    readByte s x = readByte t x := by simp [readByte, hm, hg]

/-! ### What only the registers and the port see -/

@[simp] theorem readByte_setAcc (v : Half) (s : State) (x : Nat) : readByte (setAcc v s) x = readByte s x := rfl
@[simp] theorem memRead_setAcc (v : Half) (s : State) (x n : Nat) : memRead (setAcc v s) x n = memRead s x n := rfl
@[simp] theorem readByte_setRes (v : Half) (s : State) (x : Nat) : readByte (setRes v s) x = readByte s x := rfl
@[simp] theorem memRead_setRes (v : Half) (s : State) (x n : Nat) : memRead (setRes v s) x n = memRead s x n := rfl
@[simp] theorem readByte_setPktLen (v : BitVec 11) (s : State) (x : Nat) : readByte (setPktLen v s) x = readByte s x := rfl
@[simp] theorem memRead_setPktLen (v : BitVec 11) (s : State) (x n : Nat) : memRead (setPktLen v s) x n = memRead s x n := rfl
@[simp] theorem readByte_setErr (c : Code) (s : State) (x : Nat) : readByte (setErr c s) x = readByte s x := rfl
@[simp] theorem memRead_setErr (c : Code) (s : State) (x n : Nat) : memRead (setErr c s) x n = memRead s x n := rfl
@[simp] theorem readByte_respond (r : Resp) (s : State) (x : Nat) : readByte (respond r s) x = readByte s x := rfl
@[simp] theorem memRead_respond (r : Resp) (s : State) (x n : Nat) : memRead (respond r s) x n = memRead s x n := rfl
@[simp] theorem readByte_noAck (s : State) (x : Nat) : readByte (noAck s) x = readByte s x := rfl
@[simp] theorem memRead_noAck (s : State) (x n : Nat) : memRead (noAck s) x n = memRead s x n := rfl
@[simp] theorem readByte_takeInput (s : State) (rest : List HostEvent) (x : Nat) :
    readByte (takeInput s rest) x = readByte s x := rfl
@[simp] theorem memRead_takeInput (s : State) (rest : List HostEvent) (x n : Nat) :
    memRead (takeInput s rest) x n = memRead s x n := rfl

/-- A written byte does not depend on the free values. -/
theorem readByte_of_written {s : State} {x : Nat} {b : Byte} (h : s.mem.cell? x = some b) : readByte s x = b := by
  simp [readByte, h]

/-- Everything a write does to the bytes that are read afterwards. -/
theorem readByte_memWrite (a : Nat) (bs : List Byte) (s : State) (x : Nat) :
    readByte (memWrite a bs s) x = if a ≤ x ∧ x < a + bs.length then bs.getD (x - a) 0 else readByte s x := by
  by_cases h : a ≤ x ∧ x < a + bs.length
  · have hlt : x - a < bs.length := by omega
    simp [readByte, cell?_write, h, hlt]
  · simp [readByte, cell?_write, h]

@[simp] theorem memRead_length (s : State) (a n : Nat) : (memRead s a n).length = n := by simp [memRead]

theorem memRead_getElem? (s : State) (a n j : Nat) (h : j < n) : (memRead s a n)[j]? = some (readByte s (a + j)) := by
  simp [memRead, h]

@[simp] theorem memRead_zero (s : State) (a : Nat) : memRead s a 0 = [] := rfl

/-- A range reads the same in two states that agree on its bytes. -/
theorem memRead_congr {s t : State} {a n : Nat} (h : ∀ j, j < n → readByte s (a + j) = readByte t (a + j)) :
    memRead s a n = memRead t a n := by
  simp only [memRead]
  exact List.map_congr_left fun j hj => h j (List.mem_range.mp hj)

/-- The range just written reads as what was written. -/
theorem memRead_memWrite_self (a : Nat) (bs : List Byte) (s : State) :
    memRead (memWrite a bs s) a bs.length = bs := by
  apply List.ext_getElem?
  intro j
  by_cases hj : j < bs.length
  · rw [memRead_getElem? _ _ _ _ hj, readByte_memWrite]
    simp [hj]
  · simp [memRead, hj]

/-- Two writes of the same length at one place: the second stays. -/
theorem write_write (m : Memory) (a : Nat) (bs cs : List Byte) (h : bs.length = cs.length) :
    (m.write a bs).write a cs = m.write a cs := by
  have key : ∀ (b : Nat) (ds : List Byte) (p : Nat → Bool), (∀ k, b ≤ k → k < b + ds.length → p k = false) →
      (cellsFrom b ds).filter (fun c => p c.1) = [] := by
    intro b ds p
    induction ds generalizing b with
    | nil => intro _; rfl
    | cons d ds ih =>
      intro hp
      have hb : p b = false := hp b (Nat.le_refl _) (by simp)
      simp only [cellsFrom, List.filter_cons, hb]
      exact ih (b + 1) fun k h₁ h₂ => hp k (by omega) (by simp only [List.length_cons]; omega)
  have hlow := key a bs (fun k => decide (k < a)) fun k h₁ _ => by simp; omega
  have hhigh := key a bs (fun k => decide (a + cs.length ≤ k)) fun k _ h₂ => by simp; omega
  have again : ∀ p : Nat → Bool, (m.filter fun c => p c.1).filter (fun c => p c.1) = m.filter fun c => p c.1 := by
    intro p; simp [List.filter_filter]
  have e₁ : (m.filter fun c => decide (a + cs.length ≤ c.1)).filter (fun c => decide (c.1 < a)) = [] := by
    rw [List.filter_filter, List.filter_eq_nil_iff]
    intro c _; simp; omega
  have e₂ : (m.filter fun c => decide (c.1 < a)).filter (fun c => decide (a + cs.length ≤ c.1)) = [] := by
    rw [List.filter_filter, List.filter_eq_nil_iff]
    intro c _; simp; omega
  unfold Memory.write
  rw [h]
  simp only [List.filter_append, hlow, hhigh, e₁, e₂, again fun k => decide (k < a),
    again fun k => decide (a + cs.length ≤ k), List.append_nil, List.nil_append]

end Sys2Proof.Machine
end

