-- ==== Sys2Proof/Laws/Framer.lean ====
section
/-! SUPPORT. The sizes and the layout of a packet (R80, R130). -/

namespace Sys2Proof.Machine

theorem capacity_cases (k : PacketKind) : capacity k = 128 ∨ capacity k = 1024 := by cases k <;> simp [capacity, Config.capShort, Config.capLong]

theorem serializedLen_eq (k : PacketKind) : serializedLen k = capacity k + 5 := by
  simp [serializedLen, Config.hdrLen, Config.trlLen]; omega

/-- A packet of either kind fits the packet buffer (R8: `PKT_MAX`). -/
theorem packet_fits (k : PacketKind) : Config.pktBase + serializedLen k ≤ Config.memSize := by cases k <;> decide

/-- The field `kind` of a recognized kind (R130). -/
theorem kindOf_some {kind : BitVec 2} {k : PacketKind} (h : kindOf kind = some k) :
    (kind = 0 ∧ k = .short) ∨ (kind = 1 ∧ k = .long) := by
  revert k; revert kind; decide

theorem paddedBlock_length {k : PacketKind} {payload : List Byte} (h : payload.length ≤ capacity k) :
    (paddedBlock k payload).length = capacity k := by
  simp [paddedBlock]; omega

/-- "serialized length = 3 + capacity + 2" (R81). -/
theorem buildPacket_length {k : PacketKind} (seq : BitVec 12) {payload : List Byte} (h : payload.length ≤ capacity k) :
    (buildPacket k seq payload).length = serializedLen k := by
  simp [buildPacket, crcTrailer, paddedBlock_length h, serializedLen_eq]

/-- The block byte by byte: the payload left-aligned, then zeros. -/
theorem paddedBlock_getElem? {k : PacketKind} {payload : List Byte} (h : payload.length ≤ capacity k) {j : Nat}
    (hj : j < capacity k) :
    (paddedBlock k payload)[j]? = some (if j < payload.length then payload.getD j 0 else 0) := by
  by_cases hp : j < payload.length
  · simp [paddedBlock, hp, List.getElem?_append_left]
  · have : j - payload.length < capacity k - payload.length := by omega
    simp [paddedBlock, hp, List.getElem?_append_right (show payload.length ≤ j by omega), this]

/-- The packet of a successful build is in the packet buffer. -/
theorem memRead_storePacket {k : PacketKind} (seq len : BitVec 12) (s : State) (h : len.toNat ≤ capacity k) :
    memRead (storePacket k seq len s) Config.pktBase (serializedLen k) = buildPacket k seq (payloadBytes s len) := by
  have hl : (buildPacket k seq (payloadBytes s len)).length = serializedLen k :=
    buildPacket_length seq (by simpa [payloadBytes] using h)
  rw [← hl]
  exact memRead_memWrite_self Config.pktBase _ s

/-- A successful build changes no byte outside the packet. -/
theorem readByte_storePacket_outside {k : PacketKind} (seq len : BitVec 12) (s : State) (h : len.toNat ≤ capacity k)
    {a : Nat} (ha : a < Config.pktBase ∨ Config.pktBase + serializedLen k ≤ a) :
    readByte (storePacket k seq len s) a = readByte s a := by
  have hl : (buildPacket k seq (payloadBytes s len)).length = serializedLen k :=
    buildPacket_length seq (by simpa [payloadBytes] using h)
  have := readByte_memWrite Config.pktBase (buildPacket k seq (payloadBytes s len)) s a
  rw [hl, if_neg (by omega)] at this
  exact this

@[simp] theorem storePacket_acc (k : PacketKind) (seq len : BitVec 12) (s : State) : (storePacket k seq len s).acc = s.acc := rfl
@[simp] theorem storePacket_res (k : PacketKind) (seq len : BitVec 12) (s : State) : (storePacket k seq len s).res = s.res := rfl
@[simp] theorem storePacket_err (k : PacketKind) (seq len : BitVec 12) (s : State) : (storePacket k seq len s).err = s.err := rfl
@[simp] theorem storePacket_memGen (k : PacketKind) (seq len : BitVec 12) (s : State) : (storePacket k seq len s).memGen = s.memGen := rfl
@[simp] theorem storePacket_inputs (k : PacketKind) (seq len : BitVec 12) (s : State) : (storePacket k seq len s).inputs = s.inputs := rfl
@[simp] theorem storePacket_resp (k : PacketKind) (seq len : BitVec 12) (s : State) : (storePacket k seq len s).resp = s.resp := rfl

/-- `PKT_LEN` holds the whole length: 133 and 1029 fit in 11 bits (R25). -/
@[simp] theorem storePacket_pktLen (k : PacketKind) (seq len : BitVec 12) (s : State) :
    (storePacket k seq len s).pktLen.toNat = serializedLen k := by
  cases k <;> rfl

end Sys2Proof.Machine
end

