-- ==== Sys2Proof/Laws/Exec.lean ====
section
/-! SUPPORT. What a command can do, said once: every meaning is one of four updates. -/

namespace Sys2Proof.Machine

/-- Every command ends in a next state, and in one of four ways: it writes `ACC` and completes; it writes `RES` and
completes; it stores a packet and completes; or it raises, and writes its code alone (R116, R131, R152). -/
theorem exec_cases (i : Instr) (s : State) :
    (∃ v, (i = .crcRst ∨ ∃ b, i = .crcUpd b) ∧ exec i s = .next (setErr .ok (setAcc v s))) ∨
    (∃ v, (i = .crcFin ∨ (∃ st l, i = .crcCmp st l ∧ rangeLegal st l = true) ∨
        (∃ st l, i = .crcX st l ∧ rangeLegal st l = true) ∨ ∃ w n, i = .rev w n ∧ countLegal n = true) ∧
      exec i s = .next (setErr .ok (setRes v s))) ∨
    (∃ kind k seq len, i = .pktBld kind seq len ∧ kindOf kind = some k ∧ len.toNat ≤ capacity k ∧
      exec i s = .next (setErr .ok (storePacket k seq len s))) ∨
    (∃ c, c ≠ .ok ∧ ((∃ st l, (i = .crcCmp st l ∨ i = .crcX st l) ∧ rangeLegal st l = false ∧ c = .badRange) ∨
        (∃ w n, i = .rev w n ∧ countLegal n = false ∧ c = .illegalCommand) ∨
        ∃ kind seq len, i = .pktBld kind seq len ∧ (∀ k, kindOf kind = some k → capacity k < len.toNat) ∧
          c = .invalidPacketRequest) ∧
      exec i s = .next (setErr c s)) := by
  cases i with
  | crcRst => exact .inl ⟨_, .inl rfl, rfl⟩
  | crcUpd b => exact .inl ⟨_, .inr ⟨b, rfl⟩, rfl⟩
  | crcFin => exact .inr (.inl ⟨_, .inl rfl, rfl⟩)
  | crcCmp st l =>
    by_cases h : rangeLegal st l = true
    · exact .inr (.inl ⟨_, .inr (.inl ⟨st, l, rfl, h⟩), by simp only [exec, execCrcCmp, h, if_true]; rfl⟩)
    · exact .inr (.inr (.inr ⟨.badRange, by decide, .inl ⟨st, l, .inl rfl, by simpa using h, rfl⟩,
        by simp only [exec, execCrcCmp, h]; rfl⟩))
  | crcX st l =>
    by_cases h : rangeLegal st l = true
    · exact .inr (.inl ⟨_, .inr (.inr (.inl ⟨st, l, rfl, h⟩)), by simp only [exec, execCrcX, h, if_true]; rfl⟩)
    · exact .inr (.inr (.inr ⟨.badRange, by decide, .inl ⟨st, l, .inr rfl, by simpa using h, rfl⟩,
        by simp only [exec, execCrcX, h]; rfl⟩))
  | rev w n =>
    by_cases h : countLegal n = true
    · exact .inr (.inl ⟨_, .inr (.inr (.inr ⟨w, n, rfl, h⟩)), by simp only [exec, execRev, h, if_true]; rfl⟩)
    · exact .inr (.inr (.inr ⟨.illegalCommand, by decide, .inr (.inl ⟨w, n, rfl, by simpa using h, rfl⟩),
        by simp only [exec, execRev, h]; rfl⟩))
  | pktBld kind seq len =>
    cases hk : kindOf kind with
    | none =>
      exact .inr (.inr (.inr ⟨.invalidPacketRequest, by decide, .inr (.inr ⟨kind, seq, len, rfl, by simp [hk], rfl⟩),
        by simp only [exec, execPktBld, hk]; rfl⟩))
    | some k =>
      by_cases h : len.toNat > capacity k
      · exact .inr (.inr (.inr ⟨.invalidPacketRequest, by decide,
          .inr (.inr ⟨kind, seq, len, rfl, by simpa [hk] using h, rfl⟩), by simp only [exec, execPktBld, hk, h, if_true]; rfl⟩))
      · exact .inr (.inr (.inl ⟨kind, k, seq, len, rfl, hk, by omega, by simp only [exec, execPktBld, hk, h, if_false]; rfl⟩))

/-- No command touches the port or the generation of the free bytes. -/
theorem exec_port {i : Instr} {s t : State} (h : exec i s = .next t) :
    t.inputs = s.inputs ∧ t.resp = s.resp ∧ t.memGen = s.memGen := by
  obtain ⟨v, -, e⟩ | ⟨v, -, e⟩ | ⟨kind, k, seq, len, -, -, -, e⟩ | ⟨c, -, -, e⟩ := exec_cases i s <;>
    (rw [e] at h; cases h; simp)

/-- A word written to `CMD`: its command's meaning, or `IllegalCommand` (R30, R153). -/
theorem runCommand_cases (w : Word) (s : State) :
    (∃ i, decode w = .ok i ∧ runCommand w s = exec i s) ∨
    (∃ e, decode w = .error e ∧ runCommand w s = .next (setErr .illegalCommand s)) := by
  cases h : decode w with
  | ok i => exact .inl ⟨i, rfl, by simp [runCommand, h]⟩
  | error e => exact .inr ⟨e, rfl, by simp only [runCommand, h]; rfl⟩

end Sys2Proof.Machine
end

