-- ==== Sys2Proof/Laws/PerInstr.lean ====
section
/-! SUPPORT. The per-command family `OpcodeRow`: each command's word lies in its own row of the opcode map (R72). -/

namespace Sys2Proof.Laws.OpcodeRow

/-- The row's `match` (R72). -/
def rowMatch : Instr → Word
  | .crcRst => 0x10000000#32
  | .crcUpd _ => 0x20000000#32
  | .crcFin => 0x30000000#32
  | .crcCmp _ _ => 0x40000000#32
  | .crcX _ _ => 0x50000000#32
  | .rev _ _ => 0x60000000#32
  | .pktBld _ _ _ => 0x70000000#32

/-- The row's `mask` (R72). -/
def rowMask : Instr → Word
  | .crcRst => 0xFFFFFFFF#32
  | .crcUpd _ => 0xFFFFFF00#32
  | .crcFin => 0xFFFFFFFF#32
  | .crcCmp _ _ => 0xFF000000#32
  | .crcX _ _ => 0xFF000000#32
  | .rev _ _ => 0xFFE00000#32
  | .pktBld _ _ _ => 0xFC000000#32

/-- The command's word is of the command's row: "the word is of that row exactly when `w & mask == match`" (R72). -/
def Statement (i : Instr) : Prop := encode i &&& rowMask i = rowMatch i

theorem crcRst : Statement .crcRst := rfl

theorem crcUpd (byte : BitVec 8) : Statement (.crcUpd byte) := by
  apply BitVec.eq_of_getLsbD_eq
  intro i hi
  interval_cases i <;> simp [encode, place, rowMask, rowMatch]

theorem crcFin : Statement .crcFin := rfl

theorem crcCmp (start len : BitVec 12) : Statement (.crcCmp start len) := by
  apply BitVec.eq_of_getLsbD_eq
  intro i hi
  interval_cases i <;> simp [encode, place, rowMask, rowMatch]

theorem crcX (start len : BitVec 12) : Statement (.crcX start len) := by
  apply BitVec.eq_of_getLsbD_eq
  intro i hi
  interval_cases i <;> simp [encode, place, rowMask, rowMatch]

theorem rev (value : BitVec 16) (n : BitVec 5) : Statement (.rev value n) := by
  apply BitVec.eq_of_getLsbD_eq
  intro i hi
  interval_cases i <;> simp [encode, place, rowMask, rowMatch]

theorem pktBld (kind : BitVec 2) (seq len : BitVec 12) : Statement (.pktBld kind seq len) := by
  apply BitVec.eq_of_getLsbD_eq
  intro i hi
  interval_cases i <;> simp [encode, place, rowMask, rowMatch]

end Sys2Proof.Laws.OpcodeRow
end

