-- ==== Sys2Proof/Laws/Port.lean ====
section
/-! SUPPORT. What a step can do, said once: the map's classes of address and the five kinds of step. -/

namespace Sys2Proof.Machine

/-- A register's address is found in the map. -/
theorem lookup_of_mem {n : Nat} {r : Reg} (h : (n, r) ∈ regMap) : regMap.lookup n = some r := by
  have unique : ∀ row ∈ regMap, regMap.lookup row.1 = some row.2 := by decide
  exact unique (n, r) h

/-- An address of no register is not found. -/
theorem lookup_eq_none {n : Nat} (h : ∀ r, (n, r) ∉ regMap) : regMap.lookup n = none := by
  rw [List.lookup_eq_none_iff]
  rintro ⟨k, r⟩ hp
  by_contra hc
  simp at hc
  exact h r (hc ▸ hp)

/-- The readable registers are exactly 0x1001 to 0x1004 and 0x1008 to 0x100D (R29, R52). -/
theorem mem_regMap (n : Nat) : (∃ r, (n, r) ∈ regMap) ↔ (0x1001 ≤ n ∧ n ≤ 0x1004) ∨ (0x1008 ≤ n ∧ n ≤ 0x100D) := by
  simp only [regMap, List.mem_cons, Prod.mk.injEq, List.not_mem_nil, or_false]
  constructor
  · rintro ⟨r, h⟩; omega
  · rintro (⟨h₁, h₂⟩ | ⟨h₁, h₂⟩) <;> interval_cases n <;> simp

/-- The map's first three rows, one condition each (R52). -/
theorem locate_eq (a : PortAddr) :
    (a.toNat ≤ 0x3FF ∧ locate a = .pay) ∨ (0x400 ≤ a.toNat ∧ a.toNat ≤ 0x804 ∧ locate a = .pkt) ∨
    (a = Config.cmdAddr ∧ locate a = .cmd) ∨
    (0x805 ≤ a.toNat ∧ a ≠ Config.cmdAddr ∧ ((∃ r, locate a = .reg r) ∨ locate a = .nothing)) := by
  by_cases h₁ : a.toNat < 0x400
  · exact .inl ⟨by omega, by simp [locate, Config.pktBase, h₁]⟩
  · by_cases h₂ : a.toNat < 0x805
    · exact .inr (.inl ⟨by omega, by omega, by simp [locate, Config.pktBase, Config.memSize, h₁, h₂]⟩)
    · by_cases h₃ : a = Config.cmdAddr
      · subst h₃; exact .inr (.inr (.inl ⟨rfl, rfl⟩))
      · refine .inr (.inr (.inr ⟨by omega, h₃, ?_⟩))
        cases hr : regMap.lookup a.toNat with
        | some r => exact .inl ⟨r, by simp [locate, Config.pktBase, Config.memSize, h₁, h₂, h₃, hr]⟩
        | none => exact .inr (by simp [locate, Config.pktBase, Config.memSize, h₁, h₂, h₃, hr])

/-- `PAY` is exactly the addresses 0x000 to 0x3FF (R52). -/
theorem locate_pay (a : PortAddr) : locate a = .pay ↔ a.toNat ≤ 0x3FF := by
  obtain ⟨h, e⟩ | ⟨h, -, e⟩ | ⟨rfl, e⟩ | ⟨h, -, ⟨r, e⟩ | e⟩ := locate_eq a
  · simp [e, h]
  · simp [e]; omega
  · simp only [e]; decide
  · simp [e]; omega
  · simp [e]; omega

/-- `CMD` is exactly the address 0x1000 (R29, R52). -/
theorem locate_cmd (a : PortAddr) : locate a = .cmd ↔ a = Config.cmdAddr := by
  obtain ⟨h, e⟩ | ⟨-, h, e⟩ | ⟨rfl, e⟩ | ⟨-, h, ⟨r, e⟩ | e⟩ := locate_eq a
  · simp [e]; rintro rfl; simp [Config.cmdAddr] at h
  · simp [e]; rintro rfl; simp [Config.cmdAddr] at h
  · simp [e]
  · simp [e, h]
  · simp [e, h]

/-- Everything one step can do, by what the host drives (R30, R51, R53 to R55, R157, R166, R170). -/
theorem step_cases (s : State) :
    ((s.inputs = [] ∨ ∃ rest, s.inputs = .idle :: rest) ∧ step s = .next (noAck (takeInput s s.inputs.tail))) ∨
    (∃ x rest, s.inputs = .reset x :: rest ∧ step s = .next (resetBlock (takeInput s rest))) ∨
    (∃ a rest, s.inputs = .txn (.read a) :: rest ∧
      step s = .next (respond (readResponse a (takeInput s rest)) (takeInput s rest))) ∨
    (∃ a d rest, s.inputs = .txn (.write a d) :: rest ∧ a.toNat ≤ 0x3FF ∧
      step s = .next (respond (.done 0) (memWrite a.toNat [d.extractLsb' 0 8] (takeInput s rest)))) ∨
    (∃ a d rest, s.inputs = .txn (.write a d) :: rest ∧ 0x3FF < a.toNat ∧ a ≠ Config.cmdAddr ∧
      step s = .next (respond .fault (takeInput s rest))) ∨
    (∃ w rest, s.inputs = cmdWrite w :: rest ∧ step s = runCommand w (respond (.done 0) (takeInput s rest))) := by
  cases hs : s.inputs with
  | nil =>
    refine .inl ⟨.inl rfl, ?_⟩
    have : takeInput s ([] : List HostEvent) = s := by cases s; simp_all [takeInput]
    simp [step, hs, this]
  | cons e rest =>
    cases e with
    | idle => exact .inl ⟨.inr ⟨rest, rfl⟩, by simp [step, hs, serve]⟩
    | reset x => exact .inr (.inl ⟨x, rest, rfl, by simp [step, hs, serve]⟩)
    | txn t =>
      cases t with
      | read a => exact .inr (.inr (.inl ⟨a, rest, rfl, by simp [step, hs, serve]⟩))
      | write a d =>
        cases hl : locate a with
        | pay =>
          exact .inr (.inr (.inr (.inl ⟨a, d, rest, rfl, (locate_pay a).mp hl, by simp [step, hs, serve, serveWrite, hl]⟩)))
        | cmd =>
          have ha := (locate_cmd a).mp hl
          subst ha
          exact .inr (.inr (.inr (.inr (.inr ⟨d, rest, rfl, by simp [step, hs, serve, serveWrite, hl]⟩))))
        | pkt =>
          exact .inr (.inr (.inr (.inr (.inl ⟨a, d, rest, rfl,
            by have := (locate_pay a).not.mp (by simp [hl]); omega, (locate_cmd a).not.mp (by simp [hl]),
            by simp [step, hs, serve, serveWrite, hl]⟩))))
        | reg r =>
          exact .inr (.inr (.inr (.inr (.inl ⟨a, d, rest, rfl,
            by have := (locate_pay a).not.mp (by simp [hl]); omega, (locate_cmd a).not.mp (by simp [hl]),
            by simp [step, hs, serve, serveWrite, hl]⟩))))
        | nothing =>
          exact .inr (.inr (.inr (.inr (.inl ⟨a, d, rest, rfl,
            by have := (locate_pay a).not.mp (by simp [hl]); omega, (locate_cmd a).not.mp (by simp [hl]),
            by simp [step, hs, serve, serveWrite, hl]⟩))))

end Sys2Proof.Machine
end

