-- ==== Sys2Proof/Tests/Slice0.lean ====
section
/-! SUPPORT. The model's own tests: well-formedness, words written out from the encodings of 30_encoding.md, one step of
each command against 95_test_vectors.md, and a witness for the hypotheses of every statement. -/

namespace Sys2Proof.Tests

open Sys2Proof.Machine Sys2Proof.Claims

/-! ### Well-formedness -/

theorem test_wf_refuses_rev_17 : (Instr.rev 0x0000#16 17#5).wf = false := by decide

theorem test_wf_admits_rev_16 : (Instr.rev 0x0000#16 16#5).wf = true := by decide

/-! ### Words written out field by field (R71, R72) -/

theorem test_decode_crcRst : decode 0b00010000000000000000000000000000#32 = .ok .crcRst := by decide

theorem test_decode_crcUpd : decode 0b00100000000000000000000010110001#32 = .ok (.crcUpd 0b10110001#8) := by decide

theorem test_decode_crcFin : decode 0b00110000000000000000000000000000#32 = .ok .crcFin := by decide

theorem test_decode_crcCmp :
    decode 0b01000000100000000001011000000101#32 = .ok (.crcCmp 0b100000000001#12 0b011000000101#12) := by decide

theorem test_decode_crcX :
    decode 0b01010000010000000011000010000010#32 = .ok (.crcX 0b010000000011#12 0b000010000010#12) := by decide

theorem test_decode_rev : decode 0b01100000000100000001000000100001#32 = .ok (.rev 0b0001000000100001#16 0b10000#5) := by decide

theorem test_decode_pktBld :
    decode 0b01110001000011111111010000000001#32 = .ok (.pktBld 0b01#2 0b000011111111#12 0b010000000001#12) := by decide

theorem test_decode_refuses :
    decode 0x00000000#32 = .error (.reservedOpcode 0#4) ∧ decode 0x80000000#32 = .error (.reservedOpcode 8#4) ∧
    decode 0xFFFFFFFF#32 = .error (.reservedOpcode 15#4) ∧ decode 0x10000001#32 = .error (.nonZeroField 1#4) ∧
    decode 0x20000141#32 = .error (.nonZeroField 2#4) ∧ decode 0x30000001#32 = .error (.nonZeroField 3#4) ∧
    decode 0x51000009#32 = .error (.nonZeroField 5#4) ∧ decode 0x60110000#32 = .error (.reverseCount 17#5) ∧
    decode 0x7B000000#32 = .error (.nonZeroField 7#4) ∧ decode 0x74000000#32 = .error (.nonZeroField 7#4) := by decide

theorem test_decodeTableWord : decodeTableWord 32 0x71001009 = some (.pktBld 1#2 1#12 9#12) := by decide

/-! ### One step of each command (95_test_vectors.md) -/

/-- The reset state with the host's next events. -/
def fromReset (es : List HostEvent) : State := { State.reset with inputs := es }

/-- The reset state with the bytes `bs` at address 0 of `M`. -/
def withPayload (bs : List Byte) : State := memWrite 0 bs State.reset

/-- "123456789" (R10). -/
def digits : List Byte := [0x31#8, 0x32#8, 0x33#8, 0x34#8, 0x35#8, 0x36#8, 0x37#8, 0x38#8, 0x39#8]

/-- What a test reads of an outcome. -/
def nextOf (o : Host.Outcome State Fault Refusal) : Option State :=
  match o with
  | .next t => some t
  | .fault _ => none
  | .refused _ => none

/-- The four registers of the next state. -/
def regsOf (o : Host.Outcome State Fault Refusal) : Option (Half × Half × BitVec 3 × BitVec 11) :=
  (nextOf o).map fun t => (t.acc, t.res, t.err, t.pktLen)

/-- V-S1. -/
theorem test_crcRst : regsOf (exec .crcRst { State.reset with acc := 0xBEEF#16, err := 3 }) = some (0, 0, 0, 0) := by decide

/-- V-S3. -/
theorem test_crcUpd : regsOf (exec (.crcUpd 0x39#8) { State.reset with acc := 0x9015#16 }) = some (0x31C3#16, 0, 0, 0) := by decide

/-- V-U9, V-S4: no polynomial is brought in. -/
theorem test_crcUpd_no_poly :
    regsOf (exec (.crcUpd 0xFF#8) { State.reset with acc := 0xFFFF#16 }) = some (0xFF00#16, 0, 0, 0) := by decide

/-- V-S5. -/
theorem test_crcFin :
    regsOf (exec .crcFin { State.reset with acc := 0x31C3#16, res := 0x1111#16 }) = some (0x31C3#16, 0x31C3#16, 0, 0) := by decide

set_option maxRecDepth 8000 in
/-- V-X3. -/
theorem test_crcCmp : regsOf (exec (.crcCmp 0#12 9#12) (withPayload digits)) = some (0, 0x31C3#16, 0, 0) := by decide

/-- V-X7. -/
theorem test_crcCmp_badRange :
    regsOf (exec (.crcCmp 0x800#12 6#12) { State.reset with res := 0x58E5#16 }) = some (0, 0x58E5#16, 3, 0) := by decide

/-- V-X4: `start` is a byte address. -/
theorem test_crcX : regsOf (exec (.crcX 1#12 1#12) (withPayload digits)) = some (0, 0x1611#16, 0, 0) := by decide

/-- V-X9: out of range even with no byte to read. -/
theorem test_crcX_badRange : regsOf (exec (.crcX 0x806#12 0#12) State.reset) = some (0, 0, 3, 0) := by decide

/-- V-B15. -/
theorem test_rev : regsOf (exec (.rev 0xABCD#16 12#5) State.reset) = some (0, 0x0B3D#16, 0, 0) := by decide

/-- V-B6: bits at and above `n` are ignored and zero. -/
theorem test_rev_upper_bits : regsOf (exec (.rev 0xFF01#16 8#5) State.reset) = some (0, 0x0080#16, 0, 0) := by decide

set_option maxRecDepth 40000 in
/-- V-P9: header, payload, padding and trailer of a SHORT packet, high byte of the CRC first. -/
theorem test_pktBld :
    (nextOf (exec (.pktBld 0#2 7#12 3#12) (withPayload [0x01#8, 0x02#8, 0x03#8]))).map
      (fun t => (t.pktLen, [0x400, 0x401, 0x402, 0x403, 0x405, 0x406, 0x482, 0x483, 0x484].map (readByte t))) =
    some (133#11, [0x01#8, 0x07#8, 0xF8#8, 0x01#8, 0x03#8, 0x00#8, 0x00#8, 0x3F#8, 0x9F#8]) := by decide

/-- V-P15. -/
theorem test_pktBld_tooLong :
    regsOf (exec (.pktBld 0#2 0#12 129#12) { State.reset with pktLen := 133 }) = some (0, 0, 1, 133#11) := by decide

set_option maxRecDepth 8000 in
/-- V-G3 and V-G4: the zero-length quirk, and both reflections, of the generic engine. -/
theorem test_generic_engine :
    computeCrc { xmodemCfg with init := 0xFFFF#16, xorout := 0xFFFF#16 } digits = 0xD64E#16 ∧
    computeCrc { xmodemCfg with init := 0xFFFF#16, xorout := 0xFFFF#16 } [] = 0xFFFF#16 ∧
    computeCrc { xmodemCfg with refin := true, refout := true } digits = 0x2189#16 := by decide

/-- V-M1, V-M4, V-M8, V-M15: the port. -/
theorem test_port :
    ((nextOf (step (fromReset [.txn (.write 0x0010#13 0x12345678#32)]))).map fun t => (t.mem, t.resp)) =
      some ([(0x10, 0x78#8)], some (.done 0)) ∧
    nextOf (step (fromReset [.txn (.write 0x0400#13 0x55#32)])) = some { State.reset with resp := some .fault } ∧
    nextOf (step (fromReset [.txn (.read 0x1000#13)])) = some { State.reset with resp := some .fault } ∧
    nextOf (step (fromReset [cmdWrite 0x00000000#32])) = some { State.reset with err := 2, resp := some (.done 0) } := by decide

/-- A placed command word is the next step's command (V-S2). -/
theorem test_withFetchWord : regsOf (step (State.reset.withFetchWord 32 0x20000031)) = some (0x2672#16, 0, 0, 0) := by decide

/-! ### Witnesses: each statement's hypotheses are met, every clause at a boundary of its range -/

theorem witness_DecodeInvertsEncode : (Instr.rev 0x1021#16 16#5).wf = true := by decide

theorem witness_EncodeInvertsDecode : decode 0x60101021#32 = .ok (.rev 0x1021#16 16#5) := by decide

/-- One illegal word of each of R74's kinds, at the edge of its range, and the words just inside. -/
theorem witness_IllegalWord :
    IllegalWord 0x0FFFFFFF#32 ∧ IllegalWord 0x80000000#32 ∧ IllegalWord 0x10000001#32 ∧ IllegalWord 0x20000100#32 ∧
    IllegalWord 0x38000000#32 ∧ IllegalWord 0x41000000#32 ∧ IllegalWord 0x58000000#32 ∧ IllegalWord 0x60200000#32 ∧
    IllegalWord 0x60110000#32 ∧ IllegalWord 0x74000000#32 ∧ ¬ IllegalWord 0x200000FF#32 ∧ ¬ IllegalWord 0x6010FFFF#32 := by
  refine ⟨?_, ?_, ?_, ?_, ?_, ?_, ?_, ?_, ?_, ?_, ?_, ?_⟩ <;> decide

theorem witness_IllegalWordSetsCodeTwo :
    IllegalWord 0x60110000#32 ∧ (fromReset [cmdWrite 0x60110000#32]).inputs = cmdWrite 0x60110000#32 :: [] ∧
    (InvalidRequest 0x70000081#32 ∧ bits 0x70000081#32 27 26 = 0) ∧
    (InvalidRequest 0x71000401#32 ∧ bits 0x71000401#32 27 26 = 0) ∧
    (InvalidRequest 0x72000000#32 ∧ bits 0x72000000#32 27 26 = 0) ∧
    (RangeOutside 0x40800006#32 ∧ bits 0x40800006#32 27 24 = 0) ∧
    (RangeOutside 0x50806000#32 ∧ bits 0x50806000#32 27 24 = 0) := by
  refine ⟨?_, ?_, ?_, ?_, ?_, ?_, ?_⟩ <;> decide

theorem witness_CommandWriteRunsCommand :
    (fromReset [.txn (.write 0x1000#13 0x30000000#32)]).inputs = .txn (.write 0x1000#13 0x30000000#32) :: [] ∧
    decode 0x30000000#32 = .ok .crcFin ∧ (fromReset [.txn (.read 0x1000#13)]).inputs = .txn (.read 0x1000#13) :: [] := by decide

/-- A legal word that is neither an invalid request nor out of range, at the limits 128, 1024 and 0x805. -/
theorem witness_CodeOfFirstFailingCheck :
    (¬ IllegalWord 0x70000080#32 ∧ ¬ InvalidRequest 0x70000080#32 ∧ ¬ RangeOutside 0x70000080#32) ∧
    (¬ IllegalWord 0x71000400#32 ∧ ¬ InvalidRequest 0x71000400#32 ∧ ¬ RangeOutside 0x71000400#32) ∧
    (¬ IllegalWord 0x40800005#32 ∧ ¬ InvalidRequest 0x40800005#32 ∧ ¬ RangeOutside 0x40800005#32) ∧
    (¬ IllegalWord 0x70000081#32 ∧ InvalidRequest 0x70000081#32) ∧ (¬ IllegalWord 0x40800006#32 ∧ RangeOutside 0x40800006#32) ∧
    IllegalWord 0x7B000000#32 ∧ regsOf (step (fromReset [cmdWrite 0x7B000000#32])) = some (0, 0, 2, 0) ∧
    regsOf (step (fromReset [cmdWrite 0x70000081#32])) = some (0, 0, 1, 0) ∧
    regsOf (step (fromReset [cmdWrite 0x40800006#32])) = some (0, 0, 3, 0) ∧
    ¬ HostWrites (0x0400#13).toNat ∧ ¬ HostWrites (0x1001#13).toNat := by
  refine ⟨?_, ?_, ?_, ?_, ?_, ?_, ?_, ?_, ?_, ?_, ?_⟩ <;> decide

theorem witness_FailingCommandChangesOnlyErr :
    ∃ t, step (fromReset [cmdWrite 0x70000081#32]) = .next t ∧ t.err ≠ 0 := ⟨_, rfl, by decide⟩

theorem witness_ErrWrittenByCommandsOnly :
    (∃ t, step (fromReset [cmdWrite 0x70000081#32]) = .next t) ∧
    ∃ t, step (fromReset [.txn (.write 0x1001#13 0x10000000#32)]) = .next t ∧
      ∀ w, Txn.write 0x1001#13 0x10000000#32 ≠ .write 0x1000#13 w :=
  ⟨⟨_, rfl⟩, _, rfl, by intro w h; injection h with h; exact absurd h (by decide)⟩

theorem witness_IdleBlockHoldsState :
    State.reset.inputs = [] ∧ (fromReset [.idle]).inputs = .idle :: [] := by decide

theorem witness_BlockNeverStops : (fromReset [cmdWrite 0x70000081#32]).inputs = cmdWrite 0x70000081#32 :: [] := by decide

theorem witness_FinalizeBitByBit : (15 : Nat) < 16 := by decide

theorem witness_WidthDoesNotMatter : (16 : Nat) ≤ 16 := by decide

theorem witness_CrcRstResetsAcc : ∃ t, exec .crcRst State.reset = .next t := ⟨_, rfl⟩

theorem witness_CrcFinFinalizesIntoRes :
    (∃ t, exec .crcRst State.reset = .next t) ∧ ({ State.reset with acc := 0x31C3#16 } : State).acc = 0x31C3#16 :=
  ⟨⟨_, rfl⟩, rfl⟩

theorem witness_CrcUpdFeedsOneByte :
    State.reset.acc = 0x0000#16 ∧ ({ State.reset with acc := 0x8000#16 } : State).acc = 0x8000#16 ∧
    ({ State.reset with acc := 0xFFFF#16 } : State).acc = 0xFFFF#16 := by decide

set_option maxRecDepth 8000 in
/-- The range test at 0x805: the last legal range of a length, the first illegal one, and the empty ranges. -/
theorem witness_range_commands :
    (0x800#12).toNat + (5#12).toNat ≤ 0x805 ∧ 0x805 < (0x800#12).toNat + (6#12).toNat ∧ (0x805#12).toNat ≤ 0x805 ∧
    0x805 < (0x806#12).toNat + (0#12).toNat ∧
    ∀ j, j < 9 → readByte (withPayload digits) j = BitVec.ofNat 8 (0x31 + j) := by decide

theorem witness_RevReversesLowBits : (16#5).toNat ≤ 16 ∧ 16 < (17#5).toNat := by decide

theorem witness_RangeAndBuildIgnoreAcc :
    (∃ t, exec (.crcCmp 0#12 0#12) State.reset = .next t) ∧ (∃ t, exec (.crcX 0x806#12 0#12) State.reset = .next t) ∧
    ∃ t, exec (.pktBld 1#2 0#12 0#12) State.reset = .next t := ⟨⟨_, rfl⟩, ⟨_, rfl⟩, ⟨_, rfl⟩⟩

theorem witness_EngineCommandsFrame :
    (∀ k q l, Instr.crcX 0x806#12 0#12 ≠ .pktBld k q l) ∧
    ∃ t, exec (.crcX 0x806#12 0#12) State.reset = .next t ∧ t.err ≠ 0 :=
  ⟨by intros; simp, _, rfl, by decide⟩

theorem witness_StreamingGivesXmodemCrc :
    (fromReset [cmdWrite 0x10000000#32, cmdWrite 0x20000031#32, cmdWrite 0x30000000#32, .idle]).inputs =
      cmdWrite 0x10000000#32 :: ([0x31#8].map (fun b => cmdWrite (encode (.crcUpd b))) ++ cmdWrite 0x30000000#32 :: [.idle]) := by
  decide

/-- Both kinds at their capacity, and the payload length just above it. -/
theorem witness_KindRow :
    (KindRow 0#2 128 0x01#8 ∧ (128#12).toNat ≤ 128 ∧ 128 < (129#12).toNat) ∧
    (KindRow 1#2 1024 0x02#8 ∧ (1024#12).toNat ≤ 1024 ∧ 1024 < (1025#12).toNat) ∧ 2 ≤ (2#2).toNat ∧ 2 ≤ (3#2).toNat := by
  decide

theorem witness_BuildIsDeterministic :
    (0x1FF#12).toNat % 256 = (0xFF#12).toNat % 256 ∧
    (∀ j, j < (3#12).toNat → readByte (withPayload [1, 2, 3]) j = readByte (withPayload [1, 2, 3, 4]) j) ∧
    (∃ t, exec (.pktBld 0#2 0x1FF#12 3#12) (withPayload [1, 2, 3]) = .next t) ∧
    ∃ t, exec (.pktBld 0#2 0xFF#12 3#12) (withPayload [1, 2, 3, 4]) = .next t := ⟨by decide, by decide, ⟨_, rfl⟩, ⟨_, rfl⟩⟩

theorem witness_ResidueIsZero : KindRow 1#2 1024 0x02#8 ∧ (0#12).toNat ≤ 1024 ∧
    ∃ t, exec (.pktBld 1#2 0#12 0#12) State.reset = .next t := ⟨by decide, by decide, _, rfl⟩

theorem witness_PacketComplementPair : ∃ s : State, BlockInv s ∧ s.pktLen ≠ 0 :=
  ⟨storePacket .short 0x1FF#12 0#12 State.reset,
    ⟨wf_write [] _ _ rfl (by rw [buildPacket_length _ (by simp [payloadBytes])]; exact packet_fits _), by decide,
      .inr ⟨.short, 0x1FF#12, payloadBytes State.reset 0#12, by simp [payloadBytes], storePacket_pktLen _ _ _ _,
        memRead_storePacket 0x1FF#12 0#12 State.reset (by decide)⟩⟩,
    by decide⟩

theorem witness_WireCodesAndMarkers : ∃ t, exec (.pktBld 1#2 0#12 0#12) State.reset = .next t ∧ t.err = 0 := ⟨_, rfl, rfl⟩

/-- The map's classes of address at both ends of each range (R52). -/
theorem witness_AddressMapDecidesFaults :
    (HostReads 0x804 ∧ HostReads 0x1001 ∧ HostReads 0x1004 ∧ HostReads 0x1008 ∧ HostReads 0x100D) ∧
    (¬ HostReads 0x805 ∧ ¬ HostReads 0xFFF ∧ ¬ HostReads 0x1000 ∧ ¬ HostReads 0x1005 ∧ ¬ HostReads 0x1007 ∧
      ¬ HostReads 0x100E ∧ ¬ HostReads 0x1FFF) ∧
    (HostWrites 0x3FF ∧ HostWrites 0x1000 ∧ ¬ HostWrites 0x400 ∧ ¬ HostWrites 0x804 ∧ ¬ HostWrites 0x1001) ∧
    (fromReset [.txn (.read 0x1FFF#13)]).inputs = .txn (.read 0x1FFF#13) :: [] ∧
    (fromReset [.txn (.write 0x0400#13 0#32)]).inputs = .txn (.write 0x0400#13 0#32) :: [] := by
  refine ⟨?_, ?_, ?_, ?_, ?_⟩ <;> decide

theorem witness_PayloadWriteChangesOneByte :
    (0x3FF#13).toNat ≤ 0x3FF ∧
    (fromReset [.txn (.write 0x3FF#13 0xCD#32)]).inputs = .txn (.write 0x3FF#13 0xCD#32) :: [] := by decide

theorem witness_MemoryReadReturnsByte :
    (0x804#13).toNat ≤ 0x804 ∧ (fromReset [.txn (.read 0x804#13)]).inputs = .txn (.read 0x804#13) :: [] := by decide

theorem witness_RegisterReadReturnsValue :
    (fromReset [.txn (.read 0x100D#13)]).inputs = .txn (.read 0x100D#13) :: [] := by decide

theorem witness_RegistersChangeOnlyByTheirWriters :
    (∃ t, step (fromReset [cmdWrite 0x20000031#32]) = .next t ∧ t.acc ≠ State.reset.acc) ∧
    (∃ t, step (fromReset [cmdWrite 0x600800A5#32]) = .next t ∧ t.res ≠ State.reset.res) ∧
    ∃ t, step (fromReset [cmdWrite 0x70000000#32]) = .next t ∧ t.pktLen ≠ State.reset.pktLen :=
  ⟨⟨_, rfl, by decide⟩, ⟨_, rfl, by decide⟩, ⟨_, rfl, by decide⟩⟩

theorem witness_MemoryChangesOnlyByItsWriters :
    ∃ t, step { withPayload [0x00#8] with inputs := [.txn (.write 0#13 0x78#32)] } = .next t ∧
      readByte t 0 ≠ readByte (withPayload [0x00#8]) 0 := ⟨_, rfl, by decide⟩

theorem witness_ReadReturnsLastWrite :
    (0x3FF#13).toNat ≤ 0x3FF ∧
    (∀ e, e ∈ [cmdWrite 0x71000000#32, HostEvent.txn (.write 0x3FE#13 1#32)] →
      (∀ x, e ≠ .reset x) ∧ ∀ d', e ≠ .txn (.write 0x3FF#13 d')) := by
  refine ⟨by decide, fun e he => ?_⟩
  simp only [List.mem_cons, List.not_mem_nil, or_false] at he
  rcases he with rfl | rfl <;> exact ⟨by simp [cmdWrite], by simp [cmdWrite, Config.cmdAddr]⟩

theorem witness_reset_event :
    ∃ t, step (fromReset [.reset (some (.write 0x1000#13 0x71000000#32))]) = .next t ∧ t.memGen = 1 := ⟨_, rfl, rfl⟩

theorem witness_StepKeepsInvariant : BlockInv State.reset ∧ ∃ t, step State.reset = .next t :=
  ⟨⟨rfl, by decide, .inl rfl⟩, _, rfl⟩

theorem witness_FreeBytesDoNotMatter :
    DutyMet (.pktBld 0#2 7#12 3#12) (withPayload [1, 2, 3]) ∧ ∃ t, exec (.pktBld 0#2 7#12 3#12) (withPayload [1, 2, 3]) = .next t :=
  ⟨fun _ _ _ => by unfold Written; decide, _, rfl⟩

end Sys2Proof.Tests
end

/-! PROOFS of the family 10_state: the completion code, the independence of the range and build commands from `ACC`, the
write to `CMD` and the register reads. -/

namespace Sys2Proof.Machine

/-! ### What the range and build commands do, one equation per way they end (R108, R113, R114, R131, R133) -/

theorem exec_crcCmp_of_legal {st l : BitVec 12} (h : rangeLegal st l = true) (s : State) :
    exec (.crcCmp st l) s = .next (setErr .ok (setRes (computeCrc Config.cfg (rangeBytes s st l)) s)) := by
  simp [exec, execCrcCmp, complete, h]

theorem exec_crcCmp_of_illegal {st l : BitVec 12} (h : rangeLegal st l = false) (s : State) :
    exec (.crcCmp st l) s = .next (setErr .badRange s) := by
  simp [exec, execCrcCmp, raise, h]

theorem exec_crcX_of_legal {st l : BitVec 12} (h : rangeLegal st l = true) (s : State) :
    exec (.crcX st l) s = .next (setErr .ok (setRes (xmodemCrc (rangeBytes s st l)) s)) := by
  simp [exec, execCrcX, complete, h]

theorem exec_crcX_of_illegal {st l : BitVec 12} (h : rangeLegal st l = false) (s : State) :
    exec (.crcX st l) s = .next (setErr .badRange s) := by
  simp [exec, execCrcX, raise, h]

theorem exec_pktBld_of_valid {kind : BitVec 2} {k : PacketKind} {len : BitVec 12} (hk : kindOf kind = some k)
    (hl : len.toNat ≤ capacity k) (seq : BitVec 12) (s : State) :
    exec (.pktBld kind seq len) s = .next (setErr .ok (storePacket k seq len s)) := by
  simp [exec, execPktBld, complete, hk, Nat.not_lt.mpr hl]

theorem exec_pktBld_of_invalid {kind : BitVec 2} {len : BitVec 12}
    (h : ∀ k, kindOf kind = some k → capacity k < len.toNat) (seq : BitVec 12) (s : State) :
    exec (.pktBld kind seq len) s = .next (setErr .invalidPacketRequest s) := by
  cases hk : kindOf kind with
  | none => simp [exec, execPktBld, raise, hk]
  | some k => simp [exec, execPktBld, raise, hk, h k hk]

/-! ### Independence from `ACC` (R31): a command that commutes with a write to `ACC` -/

theorem exec_crcCmp_setAcc {st l : BitVec 12} {s t : State} (h : exec (.crcCmp st l) s = .next t) (v : Half) :
    exec (.crcCmp st l) (setAcc v s) = .next (setAcc v t) := by
  cases hr : rangeLegal st l with
  | true => rw [exec_crcCmp_of_legal hr] at h ⊢; cases h; rfl
  | false => rw [exec_crcCmp_of_illegal hr] at h ⊢; cases h; rfl

theorem exec_crcX_setAcc {st l : BitVec 12} {s t : State} (h : exec (.crcX st l) s = .next t) (v : Half) :
    exec (.crcX st l) (setAcc v s) = .next (setAcc v t) := by
  cases hr : rangeLegal st l with
  | true => rw [exec_crcX_of_legal hr] at h ⊢; cases h; rfl
  | false => rw [exec_crcX_of_illegal hr] at h ⊢; cases h; rfl

theorem exec_pktBld_setAcc {kind : BitVec 2} {seq len : BitVec 12} {s t : State}
    (h : exec (.pktBld kind seq len) s = .next t) (v : Half) :
    exec (.pktBld kind seq len) (setAcc v s) = .next (setAcc v t) := by
  by_cases hv : ∃ k, kindOf kind = some k ∧ len.toNat ≤ capacity k
  · obtain ⟨k, hk, hl⟩ := hv
    rw [exec_pktBld_of_valid hk hl] at h ⊢; cases h; rfl
  · have hi : ∀ k, kindOf kind = some k → capacity k < len.toNat := by simpa using hv
    rw [exec_pktBld_of_invalid hi] at h ⊢; cases h; rfl

/-- A command that commutes with every write to `ACC` commutes with writing back what `ACC` holds, so it keeps it. -/
theorem acc_kept_of_exec_setAcc {i : Instr} {s t : State} (h : exec i s = .next t)
    (hc : ∀ v, exec i (setAcc v s) = .next (setAcc v t)) : t.acc = s.acc := by
  have hself : exec i s = .next (setAcc s.acc t) := hc s.acc
  have ht : t = setAcc s.acc t := Host.Outcome.next.inj (h.symm.trans hself)
  rw [ht, setAcc_acc]

/-! ### The completion code (R28, R33): written by every command, read by none -/

/-- The four codes of R150 are 0 to 3. -/
theorem codeBits_le (c : Code) : (codeBits c).toNat ≤ 3 := by cases c <;> decide

/-- Every command ends by writing a code of R150. -/
theorem exec_err {i : Instr} {s t : State} (h : exec i s = .next t) : ∃ c, t.err = codeBits c := by
  obtain ⟨v, -, e⟩ | ⟨v, -, e⟩ | ⟨kind, k, seq, len, -, -, -, e⟩ | ⟨c, -, -, e⟩ := exec_cases i s
  all_goals rw [e] at h; cases h; exact ⟨_, setErr_err _ _⟩

theorem runCommand_err {w : Word} {s t : State} (h : runCommand w s = .next t) : ∃ c, t.err = codeBits c := by
  obtain ⟨i, -, e⟩ | ⟨-, -, e⟩ := runCommand_cases w s
  · exact exec_err (e ▸ h)
  · rw [e] at h; cases h; exact ⟨_, setErr_err _ _⟩

/-- Every arm of `exec` reads other fields only and ends in `setErr`, which overwrites the code: each case is definitional. -/
theorem exec_ignores_err (i : Instr) (s : State) (e : BitVec 3) : exec i { s with err := e } = exec i s := by
  cases i with
  | crcRst => rfl
  | crcUpd b => rfl
  | crcFin => rfl
  | crcCmp st l => rfl
  | crcX st l => rfl
  | rev v n => rfl
  | pktBld kind seq len => rfl

theorem runCommand_ignores_err (w : Word) (s : State) (e : BitVec 3) :
    runCommand w { s with err := e } = runCommand w s := by
  unfold runCommand
  cases decode w with
  | ok i => exact exec_ignores_err i s e
  | error _ => rfl

/-! ### One step, for a known transaction (R30, R51, R55) -/

theorem runCommand_of_decode {w : Word} {i : Instr} (h : decode w = .ok i) (s : State) : runCommand w s = exec i s := by
  simp only [runCommand, h]

/-- The write of a word to `CMD` runs it on the state that took and acknowledged the transaction. -/
theorem step_cmdWrite {s : State} {w : Word} {rest : List HostEvent} (h : s.inputs = cmdWrite w :: rest) :
    step s = runCommand w (respond (.done 0) (takeInput s rest)) := by
  have hcmd : locate Config.cmdAddr = .cmd := (locate_cmd _).mpr rfl
  simp only [step, h, cmdWrite, serve, serveWrite, hcmd]

theorem step_cmdWrite_ignores_err {s : State} {w : Word} {rest : List HostEvent} (h : s.inputs = cmdWrite w :: rest)
    (e : BitVec 3) : step { s with err := e } = step s :=
  calc step { s with err := e }
      = runCommand w { respond (.done 0) (takeInput s rest) with err := e } := step_cmdWrite h
    _ = runCommand w (respond (.done 0) (takeInput s rest)) := runCommand_ignores_err w _ e
    _ = step s := (step_cmdWrite h).symm

/-- A read answers its response and changes nothing. -/
theorem step_read {s : State} {a : PortAddr} {rest : List HostEvent} (h : s.inputs = .txn (.read a) :: rest) :
    step s = .next { s with inputs := rest, resp := some (readResponse a s) } := by
  simp only [step, h, serve]; rfl

theorem readResponse_cmd (s : State) : readResponse Config.cmdAddr s = .fault := by
  simp only [readResponse, (locate_cmd _).mpr rfl]

theorem readResponse_reg {a : PortAddr} {r : Reg} (h : locate a = .reg r) (s : State) :
    readResponse a s = .done (readReg r s) := by
  simp only [readResponse, h]

/-- A transaction that is no write to `CMD` leaves `STATUS.ERR` as it is (R33). -/
theorem step_keeps_err_of_not_cmdWrite {s t : State} {x : Txn} {rest : List HostEvent} (hs : s.inputs = .txn x :: rest)
    (hx : ∀ w, x ≠ .write Config.cmdAddr w) (h : step s = .next t) : t.err = s.err := by
  obtain ⟨hi | ⟨_, hi⟩, -⟩ | ⟨_, _, hi, -⟩ | ⟨a, _, -, e⟩ | ⟨a, d, _, -, -, e⟩ | ⟨a, d, _, -, -, -, e⟩ | ⟨w, _, hi, -⟩ :=
    step_cases s
  · cases hs.symm.trans hi
  · cases hs.symm.trans hi
  · cases hs.symm.trans hi
  · rw [e] at h; cases h; rfl
  · rw [e] at h; cases h; rfl
  · rw [e] at h; cases h; rfl
  · cases hs.symm.trans hi; exact absurd rfl (hx w)

/-- The register at each readable address (R29) and its value, zero-extended (R55). -/
theorem readReg_of_mem {s : State} {a : PortAddr} {n : Nat}
    (h : (a, n) ∈ [(0x1001#13, s.err.toNat), (0x1002#13, s.res.toNat), (0x1003#13, s.acc.toNat),
      (0x1004#13, s.pktLen.toNat), (0x1008#13, 0x1021), (0x1009#13, 0x0000), (0x100A#13, 0x0000), (0x100B#13, 0x8000),
      (0x100C#13, 0xFFFF), (0x100D#13, 0)]) :
    ∃ r, locate a = .reg r ∧ (readReg r s).toNat = n := by
  simp only [List.mem_cons, Prod.mk.injEq, List.not_mem_nil, or_false] at h
  obtain ⟨rfl, rfl⟩ | ⟨rfl, rfl⟩ | ⟨rfl, rfl⟩ | ⟨rfl, rfl⟩ | ⟨rfl, rfl⟩ | ⟨rfl, rfl⟩ | ⟨rfl, rfl⟩ | ⟨rfl, rfl⟩ |
    ⟨rfl, rfl⟩ | ⟨rfl, rfl⟩ := h
  · exact ⟨.status, rfl, BitVec.toNat_setWidth_of_le (by decide)⟩
  · exact ⟨.res, rfl, BitVec.toNat_setWidth_of_le (by decide)⟩
  · exact ⟨.acc, rfl, BitVec.toNat_setWidth_of_le (by decide)⟩
  · exact ⟨.pktLen, rfl, BitVec.toNat_setWidth_of_le (by decide)⟩
  · exact ⟨.cfgPoly, rfl, rfl⟩
  · exact ⟨.cfgInit, rfl, rfl⟩
  · exact ⟨.cfgXorout, rfl, rfl⟩
  · exact ⟨.cfgMsb, rfl, rfl⟩
  · exact ⟨.cfgMask, rfl, rfl⟩
  · exact ⟨.cfgFlags, rfl, rfl⟩

end Sys2Proof.Machine

namespace Sys2Proof.Proofs

open Sys2Proof.Machine

/-- Settles O10: every command ends in `setErr`, whose code no arm reads; the other transactions leave `ERR` alone. -/
theorem errWrittenByCommandsOnly : Obligations.ErrWrittenByCommandsOnly := by
  refine ⟨fun s t w rest hs h => ⟨?_, fun e => ?_⟩, fun s t x rest => step_keeps_err_of_not_cmdWrite, rfl⟩
  · obtain ⟨c, hc⟩ := runCommand_err (step_cmdWrite hs ▸ h)
    rw [hc]
    exact codeBits_le c
  · rw [step_cmdWrite_ignores_err hs, h]

/-- Settles O27: each of the three commands commutes with a write to `ACC`. -/
theorem rangeAndBuildIgnoreAcc : Obligations.RangeAndBuildIgnoreAcc := by
  rintro i s t v hi h
  have hc : ∀ u, exec i (setAcc u s) = .next (setAcc u t) := by
    obtain ⟨st, l, rfl⟩ | ⟨st, l, rfl⟩ | ⟨k, q, l, rfl⟩ := hi
    · exact exec_crcCmp_setAcc h
    · exact exec_crcX_setAcc h
    · exact exec_pktBld_setAcc h
  exact ⟨acc_kept_of_exec_setAcc h hc, hc v⟩

/-- Settles O7: the write runs `exec` on the acknowledged state, and the map makes `CMD` write-only. -/
theorem commandWriteRunsCommand : Obligations.CommandWriteRunsCommand := by
  refine ⟨fun s w i rest hs hw => ?_, fun s rest hs => ?_⟩
  · exact (step_cmdWrite hs).trans (runCommand_of_decode hw _)
  · rw [step_read hs, readResponse_cmd]

/-- Settles O11, by the case split of `exec_ignores_err`. -/
theorem commandsIgnoreErr : Obligations.CommandsIgnoreErr := exec_ignores_err

/-- Settles O39: a read answers with the register the map names, and zero-extension keeps its value. -/
theorem registerReadReturnsValue : Obligations.RegisterReadReturnsValue := by
  intro s a n rest ha hs
  obtain ⟨r, hloc, hval⟩ := readReg_of_mem ha
  exact ⟨readReg r s, by rw [step_read hs, readResponse_reg hloc], hval⟩

end Sys2Proof.Proofs

/-! PROOFS of the family 20_memory: which accesses the address map allows, the host write to `PAY` and the host read of
memory. -/

namespace Sys2Proof.Machine

open Sys2Proof.Claims

/-! ### The address map's classes (R52) -/

/-- The map names a register at exactly the addresses of the register map (R29, R52). -/
theorem exists_locate_reg (a : PortAddr) :
    (∃ r, locate a = .reg r) ↔ (0x1001 ≤ a.toNat ∧ a.toNat ≤ 0x1004) ∨ (0x1008 ≤ a.toNat ∧ a.toNat ≤ 0x100D) := by
  rw [← mem_regMap]
  constructor
  · rintro ⟨r, h⟩
    by_contra hno
    have hnone : regMap.lookup a.toNat = none := lookup_eq_none (not_exists.mp hno)
    simp only [locate, hnone] at h
    split_ifs at h
  · rintro ⟨r, hr⟩
    have hrange := (mem_regMap a.toNat).mp ⟨r, hr⟩
    have hcmd : a ≠ Config.cmdAddr := by rintro rfl; simp at hrange
    have hpay : ¬ a.toNat < 0x400 := by omega
    have hpkt : ¬ a.toNat < 0x805 := by omega
    exact ⟨r, by simp only [locate, Config.pktBase, Config.memSize, hpay, hpkt, hcmd, if_false, lookup_of_mem hr]⟩

theorem toNat_eq_cmdAddr (a : PortAddr) : a.toNat = 0x1000 ↔ a = Config.cmdAddr :=
  BitVec.toNat_inj (y := Config.cmdAddr)

/-! ### Reads (R54, R157) -/

/-- A read of `PAY` or `PKT` answers the byte, zero-extended (R54). -/
theorem readResponse_memory {a : PortAddr} (h : a.toNat ≤ 0x804) (s : State) :
    readResponse a s = .done ((readByte s a.toNat).setWidth 32) := by
  obtain ⟨-, e⟩ | ⟨-, -, e⟩ | ⟨rfl, -⟩ | ⟨h', -, -⟩ := locate_eq a
  · simp only [readResponse, e]
  · simp only [readResponse, e]
  · simp at h
  · omega

/-- A read is done exactly at the addresses R52 lets the host read. -/
theorem errPin_readResponse (a : PortAddr) (s : State) :
    errPin (readResponse a s) = false ↔ HostReads a.toNat := by
  by_cases hm : a.toNat ≤ 0x804
  · simp [readResponse_memory hm, errPin, HostReads, hm]
  · rw [HostReads, ← exists_locate_reg]
    obtain ⟨h, -⟩ | ⟨-, h, -⟩ | ⟨rfl, e⟩ | ⟨-, -, ⟨r, e⟩ | e⟩ := locate_eq a
    · omega
    · omega
    · simp [readResponse, e, errPin]
    · simp [readResponse, e, errPin]
    · simp [readResponse, e, errPin, hm]

/-- `rdata` is zero in the `ack` cycle of an access fault (R157). -/
theorem rdataPin_of_errPin {r : Resp} (h : errPin r = true) : rdataPin r = 0 := by
  cases r with
  | done d => cases h
  | fault => rfl

/-! ### Writes (R30, R53, R157) -/

/-- What is read after one byte is written. -/
theorem readByte_memWrite_singleton (a : Nat) (b : Byte) (s : State) (x : Nat) :
    readByte (memWrite a [b] s) x = if x = a then b else readByte s x := by
  have hin : (a ≤ x ∧ x < a + [b].length) ↔ x = a := by rw [List.length_singleton]; omega
  rw [readByte_memWrite, if_congr hin rfl rfl]
  split_ifs with hx
  · simp [hx]
  · rfl

/-- A write to `PAY` stores `wdata[7:0]` and is acknowledged (R53). -/
theorem step_payWrite {s : State} {a : PortAddr} {d : Word} {rest : List HostEvent} (ha : a.toNat ≤ 0x3FF)
    (h : s.inputs = .txn (.write a d) :: rest) :
    step s = .next (respond (.done 0) (memWrite a.toNat [d.extractLsb' 0 8] (takeInput s rest))) := by
  simp only [step, h, serve, serveWrite, (locate_pay a).mpr ha]

/-- A write the map does not allow faults and changes nothing (R157). -/
theorem step_write_of_not_hostWrites {s : State} {a : PortAddr} {d : Word} {rest : List HostEvent}
    (ha : ¬ HostWrites a.toNat) (h : s.inputs = .txn (.write a d) :: rest) :
    step s = .next (respond .fault (takeInput s rest)) := by
  obtain ⟨hpay, -⟩ | ⟨-, -, e⟩ | ⟨rfl, -⟩ | ⟨-, -, ⟨r, e⟩ | e⟩ := locate_eq a
  · exact absurd (.inl hpay) ha
  · simp only [step, h, serve, serveWrite, e]
  · exact absurd (.inr rfl) ha
  · simp only [step, h, serve, serveWrite, e]
  · simp only [step, h, serve, serveWrite, e]

/-- Every command ends in a next state (R160). -/
theorem exists_exec_next (i : Instr) (s : State) : ∃ t, exec i s = .next t := by
  obtain ⟨v, -, e⟩ | ⟨v, -, e⟩ | ⟨kind, k, seq, len, -, -, -, e⟩ | ⟨c, -, -, e⟩ := exec_cases i s
  all_goals exact ⟨_, e⟩

/-- A word run from `CMD` ends in a next state and leaves the port as it is, whether or not it decodes (R30, R153). -/
theorem runCommand_next_port (w : Word) (s : State) :
    ∃ t, runCommand w s = .next t ∧ t.inputs = s.inputs ∧ t.resp = s.resp := by
  obtain ⟨i, -, e⟩ | ⟨_, -, e⟩ := runCommand_cases w s
  · obtain ⟨t, ht⟩ := exists_exec_next i s
    obtain ⟨hinputs, hresp, -⟩ := exec_port ht
    exact ⟨t, e.trans ht, hinputs, hresp⟩
  · exact ⟨_, e, rfl, rfl⟩

end Sys2Proof.Machine

namespace Sys2Proof.Proofs

open Sys2Proof.Machine Sys2Proof.Claims

/-- Settles O36: reads by the classes of `locate_eq`; a write is to `PAY`, to `CMD`, or is an access fault. -/
theorem addressMapDecidesFaults : Obligations.AddressMapDecidesFaults := by
  refine ⟨fun s a rest hs => ?_, fun s a d rest hs => ?_⟩
  · exact ⟨_, step_read hs, errPin_readResponse a s, rdataPin_of_errPin⟩
  · by_cases hw : HostWrites a.toNat
    · have hpin : errPin (.done 0) = false ↔ HostWrites a.toNat := ⟨fun _ => hw, fun _ => rfl⟩
      obtain hpay | hcmd := hw
      · exact ⟨_, .done 0, step_payWrite hpay hs, rfl, rfl, hpin, rfl, nofun⟩
      · obtain rfl := (toNat_eq_cmdAddr a).mp hcmd
        obtain ⟨t, ht, hinputs, hresp⟩ := runCommand_next_port d (respond (.done 0) (takeInput s rest))
        exact ⟨t, .done 0, (step_cmdWrite hs).trans ht, hresp, hinputs, hpin, rfl, nofun⟩
    · exact ⟨_, .fault, step_write_of_not_hostWrites hw hs, rfl, rfl, ⟨nofun, fun h => absurd h hw⟩, rfl, fun _ => rfl⟩

/-- Settles O37: the step is a write of one byte, and `readByte_memWrite_singleton` says what every address reads after it. -/
theorem payloadWriteChangesOneByte : Obligations.PayloadWriteChangesOneByte := by
  intro s a d rest ha hs
  refine ⟨_, step_payWrite ha hs, ?_, fun x hx => ?_, rfl⟩
  · simp [readByte_memWrite_singleton, bits]
  · simp [readByte_memWrite_singleton, hx]

/-- Settles O38: a read answers with the byte, and zero-extension keeps its value. -/
theorem memoryReadReturnsByte : Obligations.MemoryReadReturnsByte := by
  intro s a rest ha hs
  exact ⟨_, by rw [step_read hs, readResponse_memory ha], BitVec.toNat_setWidth_of_le (by decide)⟩

end Sys2Proof.Proofs

/-! PROOFS of the family 30_encoding: the fields and masks of the command word, the seven rows of the opcode map, the
illegal words, and the packet a build lays out. -/

namespace Sys2Proof

open Sys2Proof.Claims

/-! ### Fields, masks and places as numbers (R10, R71) -/

/-- A field of the word is the number its bits give (R10). -/
theorem toNat_field (w : Word) (hi lo len : Nat) (h : hi + 1 = lo + len) : (field w lo len).toNat = bits w hi lo := by
  rw [field, BitVec.extractLsb'_toNat, Nat.shiftRight_eq_div_pow, bits, show hi + 1 - lo = len by omega]

theorem field_eq_iff (w : Word) (hi lo : Nat) {len : Nat} (v : BitVec len) (h : hi + 1 = lo + len) :
    field w lo len = v ↔ bits w hi lo = v.toNat := by
  rw [← toNat_field w hi lo len h, BitVec.toNat_inj]

theorem toNat_opField (w : Word) : (opField w).toNat = bits w 31 28 := toNat_field w 31 28 4 rfl

/-- A mask of the bits from `lo` up clears the bits below. -/
theorem and_allOnes_shiftLeft (w : Word) (lo : Nat) : w &&& (BitVec.allOnes 32 <<< lo) = w >>> lo <<< lo := by
  ext i hi
  by_cases h : i < lo
  · simp [h]
  · have hback : lo + (i - lo) = i := by omega
    simp [h, hback, hi, -BitVec.reduceAllOnes]

/-- "`w & mask == match`" for a mask of the bits from `lo` up says that these bits are those of `match` (R72). -/
theorem and_mask_eq_iff (w mask m : Word) (lo v : Nat) (hmask : mask = BitVec.allOnes 32 <<< lo)
    (hm : m.toNat = v * 2 ^ lo) (hlo : lo ≤ 31) : w &&& mask = m ↔ bits w 31 lo = v := by
  have hdiv : w.toNat / 2 ^ lo < 2 ^ (31 + 1 - lo) := by
    refine Nat.div_lt_of_lt_mul ?_
    rw [← Nat.pow_add, show lo + (31 + 1 - lo) = 32 by omega]
    exact w.isLt
  have hle : w.toNat / 2 ^ lo * 2 ^ lo < 2 ^ 32 := (Nat.div_mul_le_self _ _).trans_lt w.isLt
  rw [hmask, and_allOnes_shiftLeft, ← BitVec.toNat_inj, BitVec.toNat_shiftLeft, BitVec.toNat_ushiftRight,
    Nat.shiftRight_eq_div_pow, Nat.shiftLeft_eq, Nat.mod_eq_of_lt hle, hm, bits, Nat.mod_eq_of_lt hdiv]
  exact Nat.mul_left_inj (Nat.two_pow_pos lo).ne'

/-- A field at its place is its value times the place's weight. -/
theorem toNat_place {n : Nat} (v : BitVec n) {lo : Nat} (h : n + lo ≤ 32) : (place v lo).toNat = v.toNat * 2 ^ lo := by
  have hv : v.toNat * 2 ^ lo < 2 ^ 32 := calc
    v.toNat * 2 ^ lo < 2 ^ n * 2 ^ lo := Nat.mul_lt_mul_of_pos_right v.isLt (Nat.two_pow_pos lo)
    _ = 2 ^ (n + lo) := (Nat.pow_add 2 n lo).symm
    _ ≤ 2 ^ 32 := Nat.pow_le_pow_right (by decide) h
  have hn : v.toNat < 2 ^ 32 := v.isLt.trans_le (Nat.pow_le_pow_right (by decide) (by omega))
  rw [place, BitVec.toNat_shiftLeft, BitVec.toNat_setWidth, Nat.mod_eq_of_lt hn, Nat.shiftLeft_eq, Nat.mod_eq_of_lt hv]

/-- A word that is zero below bit `lo + n`, joined with an `n`-bit field at `lo`, is their sum. -/
theorem toNat_or_place {x : Word} {n : Nat} (v : BitVec n) (lo : Nat) (h : n + lo ≤ 32) (hx : 2 ^ (n + lo) ∣ x.toNat) :
    (x ||| place v lo).toNat = x.toNat + v.toNat * 2 ^ lo := by
  have hv : v.toNat * 2 ^ lo < 2 ^ (n + lo) := by
    rw [Nat.pow_add]
    exact Nat.mul_lt_mul_of_pos_right v.isLt (Nat.two_pow_pos lo)
  obtain ⟨a, ha⟩ := hx
  rw [BitVec.toNat_or, toNat_place v h, ha, Nat.two_pow_add_eq_or_of_lt hv]

/-! ### The words of the assembler's table (R76) -/

theorem toNat_encode_crcRst : (encode .crcRst).toNat = 0x10000000 := rfl

theorem toNat_encode_crcUpd (b : BitVec 8) : (encode (.crcUpd b)).toNat = 0x20000000 + b.toNat := by
  rw [encode, toNat_or_place b 0 (by decide) (by decide), Nat.pow_zero, Nat.mul_one]
  rfl

theorem toNat_encode_crcFin : (encode .crcFin).toNat = 0x30000000 := rfl

/-- An opcode with two 12-bit fields, the shape `CRC.CMP` and `CRC.X` share (format M of R71). -/
theorem toNat_formatM (op : BitVec 4) (start len : BitVec 12) :
    (place op 28 ||| place start 12 ||| place len 0).toNat = op.toNat * 0x10000000 + start.toNat * 0x1000 + len.toNat := by
  have hop : (place op 28).toNat = op.toNat * 2 ^ 28 := toNat_place op (by decide)
  have hhigh : (place op 28 ||| place start 12).toNat = op.toNat * 2 ^ 28 + start.toNat * 2 ^ 12 := by
    rw [toNat_or_place start 12 (by decide) (by omega), hop]
  rw [toNat_or_place len 0 (by decide) (by omega), hhigh]
  omega

theorem toNat_encode_crcCmp (start len : BitVec 12) :
    (encode (.crcCmp start len)).toNat = 0x40000000 + start.toNat * 0x1000 + len.toNat := toNat_formatM 4#4 start len

theorem toNat_encode_crcX (start len : BitVec 12) :
    (encode (.crcX start len)).toNat = 0x50000000 + start.toNat * 0x1000 + len.toNat := toNat_formatM 5#4 start len

theorem toNat_encode_rev (value : BitVec 16) (n : BitVec 5) :
    (encode (.rev value n)).toNat = 0x60000000 + n.toNat * 0x10000 + value.toNat := by
  have hop : (place 6#4 28).toNat = 0x60000000 := rfl
  have hn : (place 6#4 28 ||| place n 16).toNat = 0x60000000 + n.toNat * 2 ^ 16 := by
    rw [toNat_or_place n 16 (by decide) (by decide), hop]
  rw [encode, toNat_or_place value 0 (by decide) (by omega), hn]
  omega

theorem toNat_encode_pktBld (kind : BitVec 2) (seq len : BitVec 12) :
    (encode (.pktBld kind seq len)).toNat =
      0x70000000 + kind.toNat * 0x1000000 + seq.toNat * 0x1000 + len.toNat := by
  have hop : (place 7#4 28).toNat = 0x70000000 := rfl
  have hkind : (place 7#4 28 ||| place kind 24).toNat = 0x70000000 + kind.toNat * 2 ^ 24 := by
    rw [toNat_or_place kind 24 (by decide) (by decide), hop]
  have hseq : (place 7#4 28 ||| place kind 24 ||| place seq 12).toNat =
      0x70000000 + kind.toNat * 2 ^ 24 + seq.toNat * 2 ^ 12 := by
    rw [toNat_or_place seq 12 (by decide) (by omega), hkind]
  rw [encode, toNat_or_place len 0 (by decide) (by omega), hseq]
  omega

/-! ### The rows of the opcode map, one equation each (R71, R72) -/

theorem decodeFormatN_eq (w : Word) (i : Instr) :
    decodeFormatN w i = if bits w 27 0 = 0 then .ok i else .error (.nonZeroField (opField w)) :=
  if_congr (field_eq_iff w 27 0 0#28 rfl) rfl rfl

theorem decodeFormatB_eq (w : Word) (mk : BitVec 8 → Instr) :
    decodeFormatB w mk = if bits w 27 8 = 0 then .ok (mk (field w 0 8)) else .error (.nonZeroField (opField w)) :=
  if_congr (field_eq_iff w 27 8 0#20 rfl) rfl rfl

theorem decodeFormatM_eq (w : Word) (mk : BitVec 12 → BitVec 12 → Instr) :
    decodeFormatM w mk =
      if bits w 27 24 = 0 then .ok (mk (field w 12 12) (field w 0 12)) else .error (.nonZeroField (opField w)) :=
  if_congr (field_eq_iff w 27 24 0#4 rfl) rfl rfl

theorem decodeFormatR_eq (w : Word) (mk : BitVec 16 → BitVec 5 → Instr) :
    decodeFormatR w mk =
      if bits w 27 21 = 0 then
        if bits w 20 16 ≤ 16 then .ok (mk (field w 0 16) (field w 16 5)) else .error (.reverseCount (field w 16 5))
      else .error (.nonZeroField (opField w)) := by
  rw [← toNat_field w 20 16 5 rfl]
  exact if_congr (field_eq_iff w 27 21 0#7 rfl) rfl rfl

theorem decodeFormatP_eq (w : Word) (mk : BitVec 2 → BitVec 12 → BitVec 12 → Instr) :
    decodeFormatP w mk =
      if bits w 27 26 = 0 then .ok (mk (field w 24 2) (field w 12 12) (field w 0 12))
      else .error (.nonZeroField (opField w)) :=
  if_congr (field_eq_iff w 27 26 0#2 rfl) rfl rfl

theorem decode_crcRst_row {w : Word} (hop : bits w 31 28 = 1) (hz : bits w 27 0 = 0) : decode w = .ok .crcRst := by
  simp only [decode, toNat_opField, hop, decodeFormatN_eq, hz, if_true]

theorem decode_crcUpd_row {w : Word} (hop : bits w 31 28 = 2) (hz : bits w 27 8 = 0) :
    decode w = .ok (.crcUpd (field w 0 8)) := by
  simp only [decode, toNat_opField, hop, decodeFormatB_eq, hz, if_true]

theorem decode_crcFin_row {w : Word} (hop : bits w 31 28 = 3) (hz : bits w 27 0 = 0) : decode w = .ok .crcFin := by
  simp only [decode, toNat_opField, hop, decodeFormatN_eq, hz, if_true]

theorem decode_crcCmp_row {w : Word} (hop : bits w 31 28 = 4) (hz : bits w 27 24 = 0) :
    decode w = .ok (.crcCmp (field w 12 12) (field w 0 12)) := by
  simp only [decode, toNat_opField, hop, decodeFormatM_eq, hz, if_true]

theorem decode_crcX_row {w : Word} (hop : bits w 31 28 = 5) (hz : bits w 27 24 = 0) :
    decode w = .ok (.crcX (field w 12 12) (field w 0 12)) := by
  simp only [decode, toNat_opField, hop, decodeFormatM_eq, hz, if_true]

theorem decode_rev_row {w : Word} (hop : bits w 31 28 = 6) (hz : bits w 27 21 = 0) (hn : bits w 20 16 ≤ 16) :
    decode w = .ok (.rev (field w 0 16) (field w 16 5)) := by
  simp only [decode, toNat_opField, hop, decodeFormatR_eq, hz, hn, if_true]

theorem decode_pktBld_row {w : Word} (hop : bits w 31 28 = 7) (hz : bits w 27 26 = 0) :
    decode w = .ok (.pktBld (field w 24 2) (field w 12 12) (field w 0 12)) := by
  simp only [decode, toNat_opField, hop, decodeFormatP_eq, hz, if_true]

/-! ### The illegal words (R74) -/

theorem decode_reserved {w : Word} (h : bits w 31 28 = 0 ∨ 8 ≤ bits w 31 28) :
    decode w = .error (.reservedOpcode (opField w)) := by
  rw [← toNat_opField] at h
  unfold decode
  split
  case h_8 => rfl
  all_goals omega

theorem decode_error_of_illegalWord {w : Word} (h : IllegalWord w) : ∃ e, decode w = .error e := by
  obtain h | h | ⟨hop, hz⟩ | ⟨hop, hz⟩ | ⟨hop, hz⟩ | ⟨hop, hz⟩ | ⟨hop, hz⟩ | ⟨hop, hz | hn⟩ | ⟨hop, hz⟩ := h
  · exact ⟨_, decode_reserved (.inl h)⟩
  · exact ⟨_, decode_reserved (.inr h)⟩
  · exact ⟨.nonZeroField (opField w), by simp only [decode, toNat_opField, hop, decodeFormatN_eq, hz, if_false]⟩
  · exact ⟨.nonZeroField (opField w), by simp only [decode, toNat_opField, hop, decodeFormatB_eq, hz, if_false]⟩
  · exact ⟨.nonZeroField (opField w), by simp only [decode, toNat_opField, hop, decodeFormatN_eq, hz, if_false]⟩
  · exact ⟨.nonZeroField (opField w), by simp only [decode, toNat_opField, hop, decodeFormatM_eq, hz, if_false]⟩
  · exact ⟨.nonZeroField (opField w), by simp only [decode, toNat_opField, hop, decodeFormatM_eq, hz, if_false]⟩
  · exact ⟨.nonZeroField (opField w), by simp only [decode, toNat_opField, hop, decodeFormatR_eq, hz, if_false]⟩
  · have hn' : ¬ bits w 20 16 ≤ 16 := by omega
    by_cases hz : bits w 27 21 = 0
    · exact ⟨.reverseCount (field w 16 5),
        by simp only [decode, toNat_opField, hop, decodeFormatR_eq, hz, hn', if_true, if_false]⟩
    · exact ⟨.nonZeroField (opField w), by simp only [decode, toNat_opField, hop, decodeFormatR_eq, hz, if_false]⟩
  · exact ⟨.nonZeroField (opField w), by simp only [decode, toNat_opField, hop, decodeFormatP_eq, hz, if_false]⟩

/-- A word that is not illegal is of one of the seven rows (R72, R74). -/
theorem row_of_not_illegalWord {w : Word} (h : ¬ IllegalWord w) :
    (bits w 31 28 = 1 ∧ bits w 27 0 = 0) ∨ (bits w 31 28 = 2 ∧ bits w 27 8 = 0) ∨
    (bits w 31 28 = 3 ∧ bits w 27 0 = 0) ∨ (bits w 31 28 = 4 ∧ bits w 27 24 = 0) ∨
    (bits w 31 28 = 5 ∧ bits w 27 24 = 0) ∨ (bits w 31 28 = 6 ∧ bits w 27 21 = 0 ∧ bits w 20 16 ≤ 16) ∨
    (bits w 31 28 = 7 ∧ bits w 27 26 = 0) := by
  simp only [not_or, not_and, not_not, not_le, Nat.lt_succ_iff] at h
  obtain ⟨hpos, hlt, hrst, hupd, hfin, hcmp, hx, hrev, hbld⟩ := h
  have hop : bits w 31 28 = 1 ∨ bits w 31 28 = 2 ∨ bits w 31 28 = 3 ∨ bits w 31 28 = 4 ∨ bits w 31 28 = 5 ∨
      bits w 31 28 = 6 ∨ bits w 31 28 = 7 := by omega
  exact hop.imp (fun e => ⟨e, hrst e⟩) <| Or.imp (fun e => ⟨e, hupd e⟩) <| Or.imp (fun e => ⟨e, hfin e⟩) <|
    Or.imp (fun e => ⟨e, hcmp e⟩) <| Or.imp (fun e => ⟨e, hx e⟩) <|
    Or.imp (fun e => ⟨e, hrev e⟩) fun e => ⟨e, hbld e⟩

/-- A word that is not illegal decodes, to the well-formed command whose word it is (R71, R72). -/
theorem exists_decode_of_not_illegalWord {w : Word} (h : ¬ IllegalWord w) :
    ∃ i, decode w = .ok i ∧ i.wf = true ∧ encode i = w := by
  simp only [← BitVec.toNat_inj (y := w)]
  obtain ⟨hop, hz⟩ | ⟨hop, hz⟩ | ⟨hop, hz⟩ | ⟨hop, hz⟩ | ⟨hop, hz⟩ | ⟨hop, hz, hn⟩ | ⟨hop, hz⟩ :=
    row_of_not_illegalWord h
  · refine ⟨_, decode_crcRst_row hop hz, rfl, ?_⟩
    rw [toNat_encode_crcRst]
    simp only [bits] at hop hz
    omega
  · refine ⟨_, decode_crcUpd_row hop hz, rfl, ?_⟩
    rw [toNat_encode_crcUpd, toNat_field w 7 0 8 rfl]
    simp only [bits] at hop hz ⊢
    omega
  · refine ⟨_, decode_crcFin_row hop hz, rfl, ?_⟩
    rw [toNat_encode_crcFin]
    simp only [bits] at hop hz
    omega
  · refine ⟨_, decode_crcCmp_row hop hz, rfl, ?_⟩
    rw [toNat_encode_crcCmp, toNat_field w 23 12 12 rfl, toNat_field w 11 0 12 rfl]
    simp only [bits] at hop hz ⊢
    omega
  · refine ⟨_, decode_crcX_row hop hz, rfl, ?_⟩
    rw [toNat_encode_crcX, toNat_field w 23 12 12 rfl, toNat_field w 11 0 12 rfl]
    simp only [bits] at hop hz ⊢
    omega
  · refine ⟨_, decode_rev_row hop hz hn, ?_, ?_⟩
    · simpa only [Instr.wf, toNat_field w 20 16 5 rfl, decide_eq_true_eq] using hn
    · rw [toNat_encode_rev, toNat_field w 20 16 5 rfl, toNat_field w 15 0 16 rfl]
      simp only [bits] at hop hz ⊢
      omega
  · refine ⟨_, decode_pktBld_row hop hz, rfl, ?_⟩
    rw [toNat_encode_pktBld, toNat_field w 25 24 2 rfl, toNat_field w 23 12 12 rfl, toNat_field w 11 0 12 rfl]
    simp only [bits] at hop hz ⊢
    omega

/-- Exactly the illegal words fail to decode (R74). -/
theorem decode_error_iff (w : Word) : (∃ e, decode w = .error e) ↔ IllegalWord w := by
  refine ⟨fun ⟨e, he⟩ => ?_, decode_error_of_illegalWord⟩
  by_contra hlegal
  obtain ⟨i, hi, -⟩ := exists_decode_of_not_illegalWord hlegal
  cases he.symm.trans hi

/-- The bits of a word of format M are its opcode, its zero field and its two operands (R71). -/
theorem bits_of_formatM {w : Word} {op : Nat} {start len : BitVec 12}
    (e : w.toNat = op * 0x10000000 + start.toNat * 0x1000 + len.toNat) :
    bits w 31 28 = op ∧ bits w 27 24 = 0 ∧ bits w 23 12 = start.toNat ∧ bits w 11 0 = len.toNat := by
  have hstart := start.isLt
  have hlen := len.isLt
  simp only [bits, e]
  omega

theorem decode_encode_crcUpd (b : BitVec 8) : decode (encode (.crcUpd b)) = .ok (.crcUpd b) := by
  have hb := b.isLt
  have hbits : bits (encode (.crcUpd b)) 31 28 = 2 ∧ bits (encode (.crcUpd b)) 27 8 = 0 ∧
      bits (encode (.crcUpd b)) 7 0 = b.toNat := by
    simp only [bits, toNat_encode_crcUpd]
    omega
  obtain ⟨hop, hz, hbyte⟩ := hbits
  rw [decode_crcUpd_row hop hz, (field_eq_iff _ 7 0 b rfl).mpr hbyte]

theorem decode_encode_crcCmp (start len : BitVec 12) :
    decode (encode (.crcCmp start len)) = .ok (.crcCmp start len) := by
  obtain ⟨hop, hz, hstart, hlen⟩ := bits_of_formatM (op := 4) (toNat_encode_crcCmp start len)
  rw [decode_crcCmp_row hop hz, (field_eq_iff _ 23 12 start rfl).mpr hstart, (field_eq_iff _ 11 0 len rfl).mpr hlen]

theorem decode_encode_crcX (start len : BitVec 12) : decode (encode (.crcX start len)) = .ok (.crcX start len) := by
  obtain ⟨hop, hz, hstart, hlen⟩ := bits_of_formatM (op := 5) (toNat_encode_crcX start len)
  rw [decode_crcX_row hop hz, (field_eq_iff _ 23 12 start rfl).mpr hstart, (field_eq_iff _ 11 0 len rfl).mpr hlen]

theorem decode_encode_rev (value : BitVec 16) {n : BitVec 5} (h : n.toNat ≤ 16) :
    decode (encode (.rev value n)) = .ok (.rev value n) := by
  have hvalue := value.isLt
  have hbits : bits (encode (.rev value n)) 31 28 = 6 ∧ bits (encode (.rev value n)) 27 21 = 0 ∧
      bits (encode (.rev value n)) 20 16 = n.toNat ∧ bits (encode (.rev value n)) 15 0 = value.toNat := by
    simp only [bits, toNat_encode_rev]
    omega
  obtain ⟨hop, hz, hn, hval⟩ := hbits
  rw [decode_rev_row hop hz (hn ▸ h), (field_eq_iff _ 15 0 value rfl).mpr hval, (field_eq_iff _ 20 16 n rfl).mpr hn]

theorem decode_encode_pktBld (kind : BitVec 2) (seq len : BitVec 12) :
    decode (encode (.pktBld kind seq len)) = .ok (.pktBld kind seq len) := by
  have hkind := kind.isLt
  have hseq := seq.isLt
  have hlen := len.isLt
  have hbits : bits (encode (.pktBld kind seq len)) 31 28 = 7 ∧ bits (encode (.pktBld kind seq len)) 27 26 = 0 ∧
      bits (encode (.pktBld kind seq len)) 25 24 = kind.toNat ∧
      bits (encode (.pktBld kind seq len)) 23 12 = seq.toNat ∧
      bits (encode (.pktBld kind seq len)) 11 0 = len.toNat := by
    simp only [bits, toNat_encode_pktBld]
    omega
  obtain ⟨hop, hz, hk, hq, hl⟩ := hbits
  rw [decode_pktBld_row hop hz, (field_eq_iff _ 25 24 kind rfl).mpr hk, (field_eq_iff _ 23 12 seq rfl).mpr hq,
    (field_eq_iff _ 11 0 len rfl).mpr hl]

theorem decode_encode {i : Instr} (h : i.wf = true) : decode (encode i) = .ok i := by
  cases i with
  | crcRst => rfl
  | crcUpd b => exact decode_encode_crcUpd b
  | crcFin => rfl
  | crcCmp start len => exact decode_encode_crcCmp start len
  | crcX start len => exact decode_encode_crcX start len
  | rev value n => exact decode_encode_rev value (of_decide_eq_true h)
  | pktBld kind seq len => exact decode_encode_pktBld kind seq len

/-- R71, R72: decoding and encoding are inverse on the well-formed commands. -/
theorem decode_eq_ok_iff (w : Word) (i : Instr) : decode w = .ok i ↔ i.wf = true ∧ encode i = w := by
  refine ⟨fun h => ?_, fun ⟨hwf, hw⟩ => hw ▸ decode_encode hwf⟩
  have hlegal : ¬ IllegalWord w := fun hill => by
    obtain ⟨e, he⟩ := decode_error_of_illegalWord hill
    cases he.symm.trans h
  obtain ⟨j, hj, hwf⟩ := exists_decode_of_not_illegalWord hlegal
  cases hj.symm.trans h
  exact hwf

/-! ### Each row as its mask and its operands (R72) -/

theorem decode_eq_crcRst_iff (w : Word) : decode w = .ok .crcRst ↔ w &&& 0xFFFFFFFF#32 = 0x10000000#32 := by
  rw [decode_eq_ok_iff, and_mask_eq_iff w 0xFFFFFFFF#32 0x10000000#32 0 0x10000000 rfl rfl (by decide),
    ← BitVec.toNat_inj, toNat_encode_crcRst]
  simp only [Instr.wf, true_and, bits]
  omega

theorem decode_eq_crcUpd_iff (w : Word) (b : BitVec 8) :
    decode w = .ok (.crcUpd b) ↔ w &&& 0xFFFFFF00#32 = 0x20000000#32 ∧ b.toNat = bits w 7 0 := by
  rw [decode_eq_ok_iff, and_mask_eq_iff w 0xFFFFFF00#32 0x20000000#32 8 0x200000 rfl rfl (by decide),
    ← BitVec.toNat_inj, toNat_encode_crcUpd]
  simp only [Instr.wf, true_and, bits]
  omega

theorem decode_eq_crcFin_iff (w : Word) : decode w = .ok .crcFin ↔ w &&& 0xFFFFFFFF#32 = 0x30000000#32 := by
  rw [decode_eq_ok_iff, and_mask_eq_iff w 0xFFFFFFFF#32 0x30000000#32 0 0x30000000 rfl rfl (by decide),
    ← BitVec.toNat_inj, toNat_encode_crcFin]
  simp only [Instr.wf, true_and, bits]
  omega

theorem decode_eq_crcCmp_iff (w : Word) (start len : BitVec 12) :
    decode w = .ok (.crcCmp start len) ↔
      w &&& 0xFF000000#32 = 0x40000000#32 ∧ start.toNat = bits w 23 12 ∧ len.toNat = bits w 11 0 := by
  rw [decode_eq_ok_iff, and_mask_eq_iff w 0xFF000000#32 0x40000000#32 24 0x40 rfl rfl (by decide),
    ← BitVec.toNat_inj, toNat_encode_crcCmp]
  simp only [Instr.wf, true_and, bits]
  omega

theorem decode_eq_crcX_iff (w : Word) (start len : BitVec 12) :
    decode w = .ok (.crcX start len) ↔
      w &&& 0xFF000000#32 = 0x50000000#32 ∧ start.toNat = bits w 23 12 ∧ len.toNat = bits w 11 0 := by
  rw [decode_eq_ok_iff, and_mask_eq_iff w 0xFF000000#32 0x50000000#32 24 0x50 rfl rfl (by decide),
    ← BitVec.toNat_inj, toNat_encode_crcX]
  simp only [Instr.wf, true_and, bits]
  omega

theorem decode_eq_rev_iff (w : Word) (value : BitVec 16) (n : BitVec 5) :
    decode w = .ok (.rev value n) ↔
      w &&& 0xFFE00000#32 = 0x60000000#32 ∧ bits w 20 16 ≤ 16 ∧ n.toNat = bits w 20 16 ∧
        value.toNat = bits w 15 0 := by
  rw [decode_eq_ok_iff, and_mask_eq_iff w 0xFFE00000#32 0x60000000#32 21 0x300 rfl rfl (by decide),
    ← BitVec.toNat_inj, toNat_encode_rev]
  simp only [Instr.wf, decide_eq_true_eq, bits]
  omega

theorem decode_eq_pktBld_iff (w : Word) (kind : BitVec 2) (seq len : BitVec 12) :
    decode w = .ok (.pktBld kind seq len) ↔
      w &&& 0xFC000000#32 = 0x70000000#32 ∧ kind.toNat = bits w 25 24 ∧ seq.toNat = bits w 23 12 ∧
        len.toNat = bits w 11 0 := by
  rw [decode_eq_ok_iff, and_mask_eq_iff w 0xFC000000#32 0x70000000#32 26 0x1C rfl rfl (by decide),
    ← BitVec.toNat_inj, toNat_encode_pktBld]
  simp only [Instr.wf, true_and, bits]
  omega

/-- A word decodes exactly when it is of one of the rows (R72). -/
theorem exists_decode_iff (w : Word) :
    (∃ i, decode w = .ok i) ↔
      (w &&& 0xFFFFFFFF#32 = 0x10000000#32 ∨ w &&& 0xFFFFFF00#32 = 0x20000000#32 ∨
        w &&& 0xFFFFFFFF#32 = 0x30000000#32 ∨ w &&& 0xFF000000#32 = 0x40000000#32 ∨
        w &&& 0xFF000000#32 = 0x50000000#32 ∨ (w &&& 0xFFE00000#32 = 0x60000000#32 ∧ bits w 20 16 ≤ 16) ∨
        w &&& 0xFC000000#32 = 0x70000000#32) := by
  have hstart : (field w 12 12).toNat = bits w 23 12 := toNat_field w 23 12 12 rfl
  have hlen : (field w 0 12).toNat = bits w 11 0 := toNat_field w 11 0 12 rfl
  constructor
  · rintro ⟨i, hi⟩
    cases i with
    | crcRst => exact .inl ((decode_eq_crcRst_iff w).mp hi)
    | crcUpd b => exact .inr (.inl ((decode_eq_crcUpd_iff w b).mp hi).1)
    | crcFin => exact .inr (.inr (.inl ((decode_eq_crcFin_iff w).mp hi)))
    | crcCmp st l => exact .inr (.inr (.inr (.inl ((decode_eq_crcCmp_iff w st l).mp hi).1)))
    | crcX st l => exact .inr (.inr (.inr (.inr (.inl ((decode_eq_crcX_iff w st l).mp hi).1))))
    | rev v n =>
      obtain ⟨hrow, hn, -⟩ := (decode_eq_rev_iff w v n).mp hi
      exact .inr (.inr (.inr (.inr (.inr (.inl ⟨hrow, hn⟩)))))
    | pktBld k q l => exact .inr (.inr (.inr (.inr (.inr (.inr ((decode_eq_pktBld_iff w k q l).mp hi).1)))))
  · rintro (h | h | h | h | h | ⟨h, hn⟩ | h)
    · exact ⟨_, (decode_eq_crcRst_iff w).mpr h⟩
    · exact ⟨_, (decode_eq_crcUpd_iff w _).mpr ⟨h, toNat_field w 7 0 8 rfl⟩⟩
    · exact ⟨_, (decode_eq_crcFin_iff w).mpr h⟩
    · exact ⟨_, (decode_eq_crcCmp_iff w _ _).mpr ⟨h, hstart, hlen⟩⟩
    · exact ⟨_, (decode_eq_crcX_iff w _ _).mpr ⟨h, hstart, hlen⟩⟩
    · exact ⟨_, (decode_eq_rev_iff w _ _).mpr ⟨h, hn, toNat_field w 20 16 5 rfl, toNat_field w 15 0 16 rfl⟩⟩
    · exact ⟨_, (decode_eq_pktBld_iff w _ _ _).mpr ⟨h, toNat_field w 25 24 2 rfl, hstart, hlen⟩⟩

/-- A word decodes to a command or to an error, not to both. -/
theorem decode_error_iff_not_ok (w : Word) : (∃ e, decode w = .error e) ↔ ¬ ∃ i, decode w = .ok i := by
  cases decode w with
  | ok i => simp
  | error e => simp

end Sys2Proof

namespace Sys2Proof.Machine

open Sys2Proof.Claims

/-- An illegal word written to `CMD` is acknowledged and raises `IllegalCommand` (R74, R153). -/
theorem step_illegalWord {s : State} {w : Word} {rest : List HostEvent} (hw : IllegalWord w)
    (h : s.inputs = cmdWrite w :: rest) :
    step s = .next (setErr .illegalCommand (respond (.done 0) (takeInput s rest))) := by
  obtain ⟨e, he⟩ := decode_error_of_illegalWord hw
  simp only [step_cmdWrite h, runCommand, he, raise]

/-! ### The packet in the packet buffer, byte by byte (R80, R131) -/

theorem buildPacket_block {k : PacketKind} (seq : BitVec 12) {payload : List Byte} (h : payload.length ≤ capacity k)
    {j : Nat} (hj : j < capacity k) : (buildPacket k seq payload)[3 + j]? = (paddedBlock k payload)[j]? := by
  rw [buildPacket, List.append_assoc, List.getElem?_append_right (Nat.le_add_right 3 j),
    List.getElem?_append_left (by simpa [paddedBlock_length h] using hj)]
  simp

theorem buildPacket_trailer {k : PacketKind} (seq : BitVec 12) {payload : List Byte}
    (h : payload.length ≤ capacity k) (j : Nat) :
    (buildPacket k seq payload)[3 + capacity k + j]? = (crcTrailer (xmodemCrc (paddedBlock k payload)))[j]? := by
  have hfront : ([marker k, seqByte seq, seqComplement seq] ++ paddedBlock k payload).length = 3 + capacity k := by
    rw [List.length_append, paddedBlock_length h]
    rfl
  rw [buildPacket, List.getElem?_append_right (by omega), hfront, Nat.add_sub_cancel_left]

theorem toNat_seqByte (seq : BitVec 12) : (seqByte seq).toNat = seq.toNat % 256 := by
  rw [seqByte, BitVec.toNat_ofNat, Nat.mod_mod]

theorem toNat_seqComplement (seq : BitVec 12) : (seqComplement seq).toNat = 0xFF - seq.toNat % 256 := by
  rw [seqComplement, BitVec.toNat_ofNat]
  omega

namespace HoldsPacket

variable {s : State} {k : PacketKind} {seq : BitVec 12} {payload : List Byte}

theorem payload_fits (h : HoldsPacket s k seq payload) : payload.length ≤ capacity k := h.1

theorem pktLen_eq (h : HoldsPacket s k seq payload) : s.pktLen.toNat = serializedLen k := h.2.1

theorem readByte_eq (h : HoldsPacket s k seq payload) {j : Nat} (hj : j < serializedLen k) :
    some (readByte s (0x400 + j)) = (buildPacket k seq payload)[j]? := by
  obtain ⟨-, -, hread⟩ := h
  rw [← hread, memRead_getElem? s _ _ j hj]

theorem marker_byte (h : HoldsPacket s k seq payload) : readByte s 0x400 = marker k :=
  Option.some.inj (h.readByte_eq (j := 0) (by rw [serializedLen_eq]; omega))

theorem seq_byte (h : HoldsPacket s k seq payload) : readByte s 0x401 = seqByte seq :=
  Option.some.inj (h.readByte_eq (j := 1) (by rw [serializedLen_eq]; omega))

theorem complement_byte (h : HoldsPacket s k seq payload) : readByte s 0x402 = seqComplement seq :=
  Option.some.inj (h.readByte_eq (j := 2) (by rw [serializedLen_eq]; omega))

theorem memRead_block (h : HoldsPacket s k seq payload) : memRead s 0x403 (capacity k) = paddedBlock k payload := by
  have hfit := h.payload_fits
  apply List.ext_getElem?
  intro j
  by_cases hj : j < capacity k
  · have hpkt := h.readByte_eq (j := 3 + j) (by rw [serializedLen_eq]; omega)
    rw [buildPacket_block seq hfit hj, ← Nat.add_assoc] at hpkt
    rw [memRead_getElem? s _ _ j hj, hpkt]
  · have hend : capacity k ≤ j := by omega
    rw [List.getElem?_eq_none (by simpa using hend), List.getElem?_eq_none (by simpa [paddedBlock_length hfit] using hend)]

theorem block_byte (h : HoldsPacket s k seq payload) {j : Nat} (hj : j < capacity k) :
    readByte s (0x403 + j) = if j < payload.length then payload.getD j 0 else 0 := by
  have hbyte := memRead_getElem? s 0x403 (capacity k) j hj
  rw [h.memRead_block, paddedBlock_getElem? h.payload_fits hj] at hbyte
  exact (Option.some.inj hbyte).symm

theorem trailer_byte (h : HoldsPacket s k seq payload) {j : Nat} (hj : j < 2) :
    some (readByte s (0x403 + capacity k + j)) = (crcTrailer (xmodemCrc (memRead s 0x403 (capacity k))))[j]? := by
  have hpkt := h.readByte_eq (j := 3 + capacity k + j) (by rw [serializedLen_eq]; omega)
  rw [buildPacket_trailer seq h.payload_fits j, ← h.memRead_block, ← Nat.add_assoc, ← Nat.add_assoc] at hpkt
  exact hpkt

/-- R81: the sequence number and its complement sum to 255. -/
theorem complement_pair (h : HoldsPacket s k seq payload) :
    (readByte s 0x401).toNat + (readByte s 0x402).toNat = 0xFF := by
  rw [h.seq_byte, h.complement_byte, toNat_seqByte, toNat_seqComplement]
  omega

end HoldsPacket

/-- A successful build leaves its packet in the packet buffer (R131). -/
theorem holdsPacket_storePacket {k : PacketKind} (seq : BitVec 12) {len : BitVec 12} (s : State)
    (h : len.toNat ≤ capacity k) : HoldsPacket (storePacket k seq len s) k seq (payloadBytes s len) :=
  ⟨by simpa [payloadBytes] using h, storePacket_pktLen k seq len s, memRead_storePacket seq len s h⟩

/-- The block of a built packet: the payload buffer's bytes, then zeros (R80, R131). -/
theorem readByte_storePacket_block {k : PacketKind} (seq : BitVec 12) {len : BitVec 12} (s : State)
    (h : len.toNat ≤ capacity k) {j : Nat} (hj : j < capacity k) :
    readByte (storePacket k seq len s) (0x403 + j) = if j < len.toNat then readByte s j else 0 := by
  rw [(holdsPacket_storePacket seq s h).block_byte hj, payloadBytes, memRead_length]
  refine if_ctx_congr Iff.rfl (fun hlt => ?_) fun _ => rfl
  rw [List.getD_eq_getElem?_getD, memRead_getElem? s _ _ j hlt, Option.getD_some, Nat.zero_add]

/-- The row of a recognized kind is the kind's capacity and marker (R130). -/
theorem kindOf_of_kindRow {kind : BitVec 2} {cap : Nat} {mark : Byte} (h : KindRow kind cap mark) :
    ∃ k, kindOf kind = some k ∧ capacity k = cap ∧ marker k = mark := by
  obtain ⟨rfl, rfl, rfl⟩ | ⟨rfl, rfl, rfl⟩ := h
  · exact ⟨.short, rfl, rfl, rfl⟩
  · exact ⟨.long, rfl, rfl, rfl⟩

/-- A `PKT.BLD` that is not legal names no kind, or more payload than its kind holds (R133). -/
theorem capacity_lt_of_invalid {kind : BitVec 2} {n : Nat}
    (h : 2 ≤ kind.toNat ∨ (kind = 0 ∧ 128 < n) ∨ (kind = 1 ∧ 1024 < n)) {k : PacketKind} (hk : kindOf kind = some k) :
    capacity k < n := by
  obtain ⟨rfl, rfl⟩ | ⟨rfl, rfl⟩ := kindOf_some hk
  · obtain h | ⟨-, h⟩ | ⟨h, -⟩ := h
    · exact absurd h (by decide)
    · exact h
    · exact absurd h (by decide)
  · obtain h | ⟨h, -⟩ | ⟨-, h⟩ := h
    · exact absurd h (by decide)
    · exact absurd h (by decide)
    · exact h

/-- A build that completes with code 0 stored a packet (R131, R133). -/
theorem holdsPacket_of_exec_pktBld {kind : BitVec 2} {seq len : BitVec 12} {s t : State}
    (h : exec (.pktBld kind seq len) s = .next t) (hok : t.err = 0) : ∃ k, HoldsPacket t k seq (payloadBytes s len) := by
  by_cases hv : ∃ k, kindOf kind = some k ∧ len.toNat ≤ capacity k
  · obtain ⟨k, hk, hl⟩ := hv
    rw [exec_pktBld_of_valid hk hl] at h
    cases h
    exact ⟨k, holdsPacket_storePacket seq s hl⟩
  · rw [exec_pktBld_of_invalid (by simpa using hv)] at h
    cases h
    cases hok

end Sys2Proof.Machine

namespace Sys2Proof.Proofs

open Sys2Proof.Machine Sys2Proof.Claims

/-- Settles O3: each row's equivalence is arithmetic on `decode_eq_ok_iff`, and a word of no row is one no command has. -/
theorem opcodeMapDecodes : Obligations.OpcodeMapDecodes := fun w =>
  ⟨decode_eq_crcRst_iff w, decode_eq_crcUpd_iff w, decode_eq_crcFin_iff w, decode_eq_crcCmp_iff w, decode_eq_crcX_iff w,
    decode_eq_rev_iff w, decode_eq_pktBld_iff w, (decode_error_iff_not_ok w).trans (not_congr (exists_decode_iff w))⟩

/-- Settles O4: the fields of a word do not overlap, so joining them adds their numbers. -/
theorem assemblerTableWords : Obligations.AssemblerTableWords :=
  ⟨toNat_encode_crcRst, toNat_encode_crcUpd, toNat_encode_crcFin, toNat_encode_crcCmp, toNat_encode_crcX,
    toNat_encode_rev, fun _ => rfl, toNat_encode_pktBld, by decide⟩

/-- Settles O6: `decode_error_iff`, the step of an illegal word, and the opcodes 4, 5 and 7 of the out-of-range words. -/
theorem illegalWordSetsCodeTwo : Obligations.IllegalWordSetsCodeTwo := by
  refine ⟨decode_error_iff, fun s w rest hw hs => step_illegalWord hw hs, by decide, by decide, ?_, ?_⟩
  · rintro w ⟨hop, -⟩ hz hill
    simp [IllegalWord, hop, hz] at hill
  · rintro w ⟨hop | hop, -⟩ hz hill
    · simp [IllegalWord, hop, hz] at hill
    · simp [IllegalWord, hop, hz] at hill

/-- Settles O30: a valid build stores the packet, whose bytes the lemmas of `HoldsPacket` read one part at a time. -/
theorem buildLaysOutPacket : Obligations.BuildLaysOutPacket := by
  refine ⟨toNat_encode_pktBld, fun s kind seq len cap mark hrow hlen => ?_, fun s kind seq len h => ?_⟩
  · obtain ⟨k, hk, rfl, rfl⟩ := kindOf_of_kindRow hrow
    have hp := holdsPacket_storePacket seq s hlen
    refine ⟨_, exec_pktBld_of_valid hk hlen seq s, rfl, ?_, rfl, rfl, rfl, rfl, rfl, hp.marker_byte, ?_, ?_,
      fun j hj => ?_, ?_, fun a ha => readByte_storePacket_outside seq len s hlen ha⟩
    · exact hp.pktLen_eq
    · exact hp.seq_byte ▸ toNat_seqByte seq
    · exact hp.complement_byte ▸ toNat_seqComplement seq
    · exact readByte_storePacket_block seq s hlen hj
    · rintro crc rfl
      exact ⟨Option.some.inj (hp.trailer_byte (j := 0) (by decide)),
        Option.some.inj (hp.trailer_byte (j := 1) (by decide))⟩
  · exact exec_pktBld_of_invalid (fun k => capacity_lt_of_invalid h) seq s

/-- Settles O34: the invariant's packet is one that `HoldsPacket` describes, of one of the two kinds. -/
theorem packetComplementPair : Obligations.PacketComplementPair := by
  intro s hinv hlen
  obtain ⟨k, seq, payload, hp⟩ := hinv.packet.resolve_left hlen
  refine ⟨hp.complement_pair, ?_⟩
  rw [hp.marker_byte, hp.pktLen_eq]
  cases k with
  | short => exact .inl ⟨rfl, rfl⟩
  | long => exact .inr ⟨rfl, rfl⟩

/-- Settles O35: a build that ends with code 0 has stored a packet, whose byte 0 is its kind's marker. -/
theorem wireCodesAndMarkers : Obligations.WireCodesAndMarkers := by
  refine ⟨rfl, rfl, rfl, rfl, rfl, rfl, rfl, fun s t kind seq len h hok => ?_⟩
  obtain ⟨k, hp⟩ := holdsPacket_of_exec_pktBld h hok
  rw [hp.marker_byte]
  cases k with
  | short => exact .inl rfl
  | long => exact .inr rfl

end Sys2Proof.Proofs

/-! PROOFS of the family 40_crc_engine: the CRC functions against their pseudocode, and what each of the six commands of
the engine leaves in the state. -/

namespace Sys2Proof.Machine

open Sys2Proof.Claims

/-! ### Update against the pseudocode on natural numbers (R102) -/

/-- The pseudocode takes its next bit as `crcBit` does. -/
theorem updateLoop_succ_toNat (cfg : CrcConfig) (d : Nat → Bool) (n : Nat) (acc : Half) :
    updateLoop cfg.msbMask.toNat cfg.poly.toNat d (n + 1) acc.toNat =
      updateLoop cfg.msbMask.toNat cfg.poly.toNat d n (crcBit cfg acc (d n)).toNat := by
  have hzero : ∀ x : Half, x.toNat ≠ 0 ↔ x ≠ 0 := fun x => (BitVec.toNat_inj (y := 0#16)).not
  simp only [updateLoop, crcBit, ← BitVec.toNat_and, ← BitVec.toNat_xor, ← BitVec.toNat_shiftLeft,
    ← apply_ite BitVec.toNat, hzero]

/-- The whole loop of the pseudocode folds `crcBit` over the bit numbers from the highest down. -/
theorem updateLoop_toNat (cfg : CrcConfig) (d : Nat → Bool) (n : Nat) (acc : Half) :
    updateLoop cfg.msbMask.toNat cfg.poly.toNat d n acc.toNat =
      ((List.range n).reverse.foldl (fun acc i => crcBit cfg acc (d i)) acc).toNat := by
  induction n generalizing acc with
  | zero => rfl
  | succ n ih => rw [updateLoop_succ_toNat, ih, List.range_succ, List.reverse_concat, List.foldl_cons]

/-- The bits of the data byte, mirrored when `refin` (R102). -/
theorem getLsbD_dataByte (cfg : CrcConfig) (byte : Byte) {i : Nat} (hi : i < 8) :
    (dataByte cfg byte).getLsbD i = if cfg.refin then byte.getLsbD (7 - i) else byte.getLsbD i := by
  cases h : cfg.refin with
  | false => simp [dataByte, h]
  | true =>
    have hsource : 7 - i < 16 := by omega
    simp [dataByte, h, getLsbD_reverseBits, hi, hsource]

/-- `crcUpdate` folds `crcBit` over the byte's bits, mirrored when `refin`, from the highest down (R102). -/
theorem crcUpdate_eq_foldl (cfg : CrcConfig) (acc : Half) (byte : Byte) :
    crcUpdate cfg acc byte = (List.range 8).reverse.foldl
      (fun acc i => crcBit cfg acc (if cfg.refin then byte.getLsbD (7 - i) else byte.getLsbD i)) acc := by
  refine List.foldl_ext _ _ acc fun a i hi => ?_
  rw [getLsbD_dataByte cfg byte (List.mem_range.mp (List.mem_reverse.mp hi))]

/-! ### Finalize and the check value (R104, R107) -/

theorem getLsbD_crcFinalize (cfg : CrcConfig) (acc : Half) {i : Nat} (hi : i < 16) :
    (crcFinalize cfg acc).getLsbD i =
      (((if cfg.refout then acc.getLsbD (15 - i) else acc.getLsbD i) ^^ cfg.xorout.getLsbD i) &&
        cfg.mask.getLsbD i) := by
  rw [crcFinalize, BitVec.getLsbD_and, BitVec.getLsbD_xor]
  cases cfg.refout with
  | false => rfl
  | true => simp only [if_true, getLsbD_reverseBits acc 16 (Nat.le_refl 16), hi, decide_true, Bool.true_and]

set_option maxRecDepth 8000 in
/-- The standard check value, over "123456789" (R107). -/
theorem xmodemCrc_digits :
    xmodemCrc [0x31#8, 0x32#8, 0x33#8, 0x34#8, 0x35#8, 0x36#8, 0x37#8, 0x38#8, 0x39#8] = 0x31C3#16 := by decide

/-! ### What the engine's commands do, one equation per way they end (R108, R110 to R115) -/

theorem exec_crcRst (s : State) : exec .crcRst s = .next { s with acc := 0x0000#16, err := 0 } := rfl

theorem exec_crcUpd (b : Byte) (s : State) :
    exec (.crcUpd b) s = .next { s with acc := crcUpdate xmodemCfg s.acc b, err := 0 } := rfl

theorem exec_crcFin (s : State) :
    exec .crcFin s = .next { s with res := crcFinalize xmodemCfg s.acc, err := 0 } := rfl

/-- The update with a known accumulator. -/
theorem exec_crcUpd_of_acc {s : State} {acc : Half} (h : s.acc = acc) (b : Byte) :
    exec (.crcUpd b) s = .next { s with acc := crcUpdate xmodemCfg acc b, err := 0 } := h ▸ exec_crcUpd b s

/-- Finalizing a known accumulator: the XMODEM finalize gives it back. -/
theorem exec_crcFin_of_acc {s : State} {acc : Half} (h : s.acc = acc) :
    exec .crcFin s = .next { s with res := acc, err := 0 } := by
  rw [exec_crcFin, crcFinalize_xmodem, h]

theorem exec_rev_of_legal {n : BitVec 5} (h : n.toNat ≤ 16) (v : BitVec 16) (s : State) :
    exec (.rev v n) s = .next { s with res := reverseBits v n.toNat, err := 0 } := by
  simp only [exec, execRev, countLegal, h, decide_true, if_true]
  rfl

theorem rangeLegal_of_le {st l : BitVec 12} (h : st.toNat + l.toNat ≤ 0x805) : rangeLegal st l = true :=
  decide_eq_true h

theorem rangeLegal_of_lt {st l : BitVec 12} (h : 0x805 < st.toNat + l.toNat) : rangeLegal st l = false :=
  decide_eq_false (Nat.not_le.mpr h)

/-- `CRC.CMP` of a range inside `M` (R113). -/
theorem exec_crcCmp_of_le {st l : BitVec 12} (h : st.toNat + l.toNat ≤ 0x805) (s : State) :
    exec (.crcCmp st l) s = .next { s with res := computeCrc Config.cfg (rangeBytes s st l), err := 0 } :=
  exec_crcCmp_of_legal (rangeLegal_of_le h) s

/-- `CRC.X` of a range inside `M` (R114). -/
theorem exec_crcX_of_le {st l : BitVec 12} (h : st.toNat + l.toNat ≤ 0x805) (s : State) :
    exec (.crcX st l) s = .next { s with res := xmodemCrc (rangeBytes s st l), err := 0 } :=
  exec_crcX_of_legal (rangeLegal_of_le h) s

/-- The hardware's configuration is XMODEM's, so the two range commands are one (R7, R113, R114). -/
theorem exec_crcCmp_eq_exec_crcX (st l : BitVec 12) (s : State) : exec (.crcCmp st l) s = exec (.crcX st l) s := rfl

/-- `CRC.X` over "123456789" at the start of `M` gives the check value. -/
theorem exec_crcX_digits {s : State} (h : ∀ j, j < 9 → readByte s j = BitVec.ofNat 8 (0x31 + j)) :
    exec (.crcX 0#12 9#12) s = .next { s with res := 0x31C3#16, err := 0 } := by
  have hbytes : rangeBytes s 0#12 9#12 = (List.range 9).map fun j => BitVec.ofNat 8 (0x31 + j) :=
    List.map_congr_left fun j hj => by simpa using h j (List.mem_range.mp hj)
  have hcrc : xmodemCrc (rangeBytes s 0#12 9#12) = 0x31C3#16 := (congrArg xmodemCrc hbytes).trans xmodemCrc_digits
  rw [exec_crcX_of_le (by decide), hcrc]

end Sys2Proof.Machine

namespace Sys2Proof

open Sys2Proof.Claims

/-- A `REV` word with more than 16 bits to reverse is no command (R72, R73). -/
theorem decode_encode_rev_of_gt (value : BitVec 16) {n : BitVec 5} (h : 16 < n.toNat) :
    decode (encode (.rev value n)) = .error (.reverseCount n) := by
  have hvalue := value.isLt
  have hbits : bits (encode (.rev value n)) 31 28 = 6 ∧ bits (encode (.rev value n)) 27 21 = 0 ∧
      bits (encode (.rev value n)) 20 16 = n.toNat := by
    simp only [bits, toNat_encode_rev]
    omega
  obtain ⟨hop, hz, hn⟩ := hbits
  simp only [decode, toNat_opField, hop, decodeFormatR_eq, hz, hn, Nat.not_le.mpr h, if_true, if_false,
    (field_eq_iff _ 20 16 n rfl).mpr hn]

end Sys2Proof

namespace Sys2Proof.Proofs

open Sys2Proof.Machine Sys2Proof.Claims

/-- Settles O14: `crcUpdate` and the pseudocode are one fold of `crcBit` over the bit numbers from 7 down to 0. -/
theorem updateRefinesPseudocode : Obligations.UpdateRefinesPseudocode := by
  intro cfg acc byte
  rw [crcUpdate_eq_foldl, updateLoop_toNat]

/-- Settles O15, from the bits of `reverseBits`. -/
theorem finalizeBitByBit : Obligations.FinalizeBitByBit := fun cfg acc _ hi => getLsbD_crcFinalize cfg acc hi

/-- Settles O26: the legal `REV` with the bits of `reverseBits`, and the decoder's count check. -/
theorem revReversesLowBits : Obligations.RevReversesLowBits :=
  ⟨toNat_encode_rev, fun s v n hn => ⟨_, exec_rev_of_legal hn v s, rfl, getLsbD_reverseBits v n.toNat hn⟩,
    fun v _ hn => decode_encode_rev_of_gt v hn⟩

/-- Settles O16: the two clauses are the two branches of `computeCrc`. -/
theorem computeCrcKeepsQuirk : Obligations.ComputeCrcKeepsQuirk := fun _ => ⟨rfl, fun _ _ => rfl⟩

/-- Settles O17: `xmodemCfg` is the record the statement writes out, and the digits give the check value. -/
theorem xmodemCheckValue : Obligations.XmodemCheckValue := ⟨fun _ => rfl, rfl, xmodemCrc_digits⟩

/-- Settles O21: the state `exec_crcRst` gives is one that `CRC.RST` gives back. -/
theorem crcRstResetsAcc : Obligations.CrcRstResetsAcc := by
  refine ⟨rfl, exec_crcRst, fun s t h => ?_, rfl⟩
  rw [exec_crcRst] at h
  cases h
  exact exec_crcRst _

/-- Settles O22: the general equation, and the update of each example's accumulator. -/
theorem crcUpdFeedsOneByte : Obligations.CrcUpdFeedsOneByte :=
  ⟨toNat_encode_crcUpd, fun s b => exec_crcUpd b s, fun _ h => exec_crcUpd_of_acc h 0x31#8,
    fun _ h => exec_crcUpd_of_acc h 0x00#8, fun _ h => exec_crcUpd_of_acc h 0xFF#8⟩

/-- Settles O23: the general equation, with the accumulator `CRC.RST` leaves and the example's. -/
theorem crcFinFinalizesIntoRes : Obligations.CrcFinFinalizesIntoRes := by
  refine ⟨rfl, exec_crcFin, fun s t h => ?_, fun s h => exec_crcFin_of_acc h⟩
  rw [exec_crcRst] at h
  cases h
  exact exec_crcFin _

/-- Settles O24: the range test decides between the two ways to end; the digits are those of `CRC.X`. -/
theorem crcCmpComputesRangeCrc : Obligations.CrcCmpComputesRangeCrc := by
  refine ⟨toNat_encode_crcCmp, fun s st l h => exec_crcCmp_of_le h s,
    fun s st l h => exec_crcCmp_of_illegal (rangeLegal_of_lt h) s, fun s st h => exec_crcCmp_of_le (l := 0#12) h s,
    fun s h => ?_⟩
  rw [exec_crcCmp_eq_exec_crcX, exec_crcX_digits h]

/-- Settles O25: the range test decides between the two ways to end, also at its edge 0x805. -/
theorem crcXComputesRangeCrc : Obligations.CrcXComputesRangeCrc :=
  ⟨toNat_encode_crcX, fun s _ _ h => exec_crcX_of_le h s, fun s _ _ h => exec_crcX_of_illegal (rangeLegal_of_lt h) s,
    exec_crcX_of_le (by decide), exec_crcX_of_illegal (rangeLegal_of_lt (by decide)), fun _ => exec_crcX_digits⟩

end Sys2Proof.Proofs

/-! PROOFS of the family 41_packet_framer: the invalid requests of `PKT.BLD`, and what its packet depends on. -/

namespace Sys2Proof.Machine

open Sys2Proof.Claims

/-! ### More payload than the kind holds (R133) -/

theorem exec_pktBld_of_capacity_lt {kind : BitVec 2} {len : BitVec 12} {cap : Nat} {mark : Byte}
    (hrow : KindRow kind cap mark) (h : cap < len.toNat) (seq : BitVec 12) (s : State) :
    exec (.pktBld kind seq len) s = .next (setErr .invalidPacketRequest s) := by
  obtain ⟨k, hk, rfl, -⟩ := kindOf_of_kindRow hrow
  refine exec_pktBld_of_invalid (fun k' hk' => ?_) seq s
  cases hk.symm.trans hk'
  exact h

/-! ### What a packet depends on (R136): the kind, `seq mod 256` and the payload bytes -/

theorem buildPacket_congr_seq {k : PacketKind} {seq₁ seq₂ : BitVec 12} (h : seq₁.toNat % 256 = seq₂.toNat % 256)
    (payload : List Byte) : buildPacket k seq₁ payload = buildPacket k seq₂ payload := by
  simp only [buildPacket, seqByte, seqComplement, h]

theorem payloadBytes_congr {s₁ s₂ : State} {len : BitVec 12} (h : ∀ j, j < len.toNat → readByte s₁ j = readByte s₂ j) :
    payloadBytes s₁ len = payloadBytes s₂ len :=
  memRead_congr fun j hj => by simpa using h j hj

theorem holdsPacket_of_exec_pktBld_of_valid {kind : BitVec 2} {k : PacketKind} {seq len : BitVec 12} {s t : State}
    (hk : kindOf kind = some k) (hl : len.toNat ≤ capacity k) (h : exec (.pktBld kind seq len) s = .next t) :
    HoldsPacket t k seq (payloadBytes s len) := by
  rw [exec_pktBld_of_valid hk hl] at h
  cases h
  exact holdsPacket_storePacket seq s hl

/-! ### Building again (R136) -/

/-- The payload buffer ends where the packet buffer begins, so a build leaves its own payload as it was (R35). -/
theorem payloadBytes_storePacket {k : PacketKind} (seq : BitVec 12) {len : BitVec 12} (s : State)
    (h : len.toNat ≤ capacity k) : payloadBytes (storePacket k seq len s) len = payloadBytes s len := by
  refine payloadBytes_congr fun j hj => readByte_storePacket_outside seq len s h (.inl ?_)
  have hcap := capacity_cases k
  change j < 0x400
  omega

theorem storePacket_storePacket {k : PacketKind} (seq : BitVec 12) {len : BitVec 12} (s : State)
    (h : len.toNat ≤ capacity k) : storePacket k seq len (storePacket k seq len s) = storePacket k seq len s := by
  have hwrite := write_write s.mem Config.pktBase (buildPacket k seq (payloadBytes s len)) _ rfl
  rw [storePacket, payloadBytes_storePacket seq s h]
  simp only [storePacket, setPktLen, memWrite, hwrite]

@[simp] theorem storePacket_setErr (k : PacketKind) (seq len : BitVec 12) (c : Code) (s : State) :
    storePacket k seq len (setErr c s) = setErr c (storePacket k seq len s) := rfl

@[simp] theorem setErr_setErr (c d : Code) (s : State) : setErr c (setErr d s) = setErr c s := rfl

/-- A build keeps its payload, so building again writes the same packet over itself; one that raised raises again. -/
theorem exec_pktBld_again {kind : BitVec 2} {seq len : BitVec 12} {s t : State}
    (h : exec (.pktBld kind seq len) s = .next t) : exec (.pktBld kind seq len) t = .next t := by
  by_cases hv : ∃ k, kindOf kind = some k ∧ len.toNat ≤ capacity k
  · obtain ⟨k, hk, hl⟩ := hv
    rw [exec_pktBld_of_valid hk hl] at h ⊢
    cases h
    rw [storePacket_setErr, setErr_setErr, storePacket_storePacket seq s hl]
  · have hi : ∀ k, kindOf kind = some k → capacity k < len.toNat := by simpa using hv
    rw [exec_pktBld_of_invalid hi] at h ⊢
    cases h
    rw [setErr_setErr]

end Sys2Proof.Machine

namespace Sys2Proof.Proofs

open Sys2Proof.Machine Sys2Proof.Claims

/-- Settles O32: both builds hold the packet of one kind, one `seq mod 256` and one payload, and
`exec_pktBld_again` is the idempotence. -/
theorem buildIsDeterministic : Obligations.BuildIsDeterministic := by
  refine ⟨fun s t kind seq len cap mark hrow hlen h => ?_,
    fun s₁ s₂ t₁ t₂ kind seq₁ seq₂ len cap mark hrow hlen hseq hpay h₁ h₂ => ?_,
    fun _ _ _ _ _ => exec_pktBld_again⟩
  · obtain ⟨k, hk, rfl, -⟩ := kindOf_of_kindRow hrow
    have hp := holdsPacket_of_exec_pktBld_of_valid hk hlen h
    exact ⟨hp.pktLen_eq, hp.complement_pair⟩
  · obtain ⟨k, hk, rfl, -⟩ := kindOf_of_kindRow hrow
    have hp₁ := holdsPacket_of_exec_pktBld_of_valid hk hlen h₁
    have hp₂ := holdsPacket_of_exec_pktBld_of_valid hk hlen h₂
    have hpkt : buildPacket k seq₁ (payloadBytes s₁ len) = buildPacket k seq₂ (payloadBytes s₂ len) := by
      rw [payloadBytes_congr hpay, buildPacket_congr_seq hseq]
    refine ⟨BitVec.eq_of_toNat_eq (hp₁.pktLen_eq.trans hp₂.pktLen_eq.symm), fun i hi => Option.some.inj ?_⟩
    rw [hp₁.readByte_eq hi, hp₂.readByte_eq hi, hpkt]

/-- Settles O31: an unrecognized kind and a payload above the capacity raise, and each boundary is one of the two ways a
`PKT.BLD` ends. -/
theorem invalidBuildLeavesPacket : Obligations.InvalidBuildLeavesPacket := by
  refine ⟨fun s kind seq len hkind => exec_pktBld_of_invalid (fun k => capacity_lt_of_invalid (.inl ?_)) seq s,
    fun s kind seq len cap mark hrow h => exec_pktBld_of_capacity_lt hrow h seq s,
    fun s seq => ⟨_, exec_pktBld_of_valid (k := .short) rfl (by decide) seq s, rfl⟩,
    fun s seq => ⟨_, exec_pktBld_of_valid (k := .long) rfl (by decide) seq s, rfl⟩,
    fun s seq => exec_pktBld_of_capacity_lt (.inl ⟨rfl, rfl, rfl⟩) (by decide) seq s,
    fun s seq => exec_pktBld_of_capacity_lt (.inr ⟨rfl, rfl, rfl⟩) (by decide) seq s⟩
  obtain rfl | rfl := hkind
  · decide
  · decide

end Sys2Proof.Proofs

/-! PROOFS of the family 60_exceptions: which code a word written to `CMD` leaves, what a command that raises leaves
unchanged, and that every step has a next state. -/

namespace Sys2Proof.Machine

open Sys2Proof.Claims

/-! ### A non-zero code says that nothing else was written (R152) -/

theorem exec_changes_only_err_of_err_ne_zero {i : Instr} {s t : State} (h : exec i s = .next t) (hne : t.err ≠ 0) :
    t = { s with err := t.err } := by
  obtain ⟨v, -, e⟩ | ⟨v, -, e⟩ | ⟨kind, k, seq, len, -, -, -, e⟩ | ⟨c, -, -, e⟩ := exec_cases i s
  · rw [e] at h; cases h; exact absurd rfl hne
  · rw [e] at h; cases h; exact absurd rfl hne
  · rw [e] at h; cases h; exact absurd rfl hne
  · rw [e] at h; cases h; rfl

theorem runCommand_changes_only_err_of_err_ne_zero {w : Word} {s t : State} (h : runCommand w s = .next t)
    (hne : t.err ≠ 0) : t = { s with err := t.err } := by
  obtain ⟨i, -, e⟩ | ⟨-, -, e⟩ := runCommand_cases w s
  · exact exec_changes_only_err_of_err_ne_zero (e ▸ h) hne
  · rw [e] at h; cases h; rfl

/-! ### The next state of every step (R160) -/

theorem exists_step_next (s : State) : ∃ t, step s = .next t := by
  obtain ⟨-, e⟩ | ⟨_, _, -, e⟩ | ⟨_, _, -, e⟩ | ⟨_, _, _, -, -, e⟩ | ⟨_, _, _, -, -, -, e⟩ | ⟨w, rest, -, e⟩ :=
    step_cases s
  · exact ⟨_, e⟩
  · exact ⟨_, e⟩
  · exact ⟨_, e⟩
  · exact ⟨_, e⟩
  · exact ⟨_, e⟩
  · obtain ⟨t, ht, -⟩ := runCommand_next_port w (respond (.done 0) (takeInput s rest))
    exact ⟨t, e.trans ht⟩

/-! ### The checks of a word that decodes (R108, R133, R150) -/

/-- A legal word whose request is invalid raises `InvalidPacketRequest` (R133). -/
theorem runCommand_of_invalidRequest {w : Word} (hlegal : ¬ IllegalWord w) (h : InvalidRequest w) (s : State) :
    runCommand w s = .next (setErr .invalidPacketRequest s) := by
  obtain ⟨hop, hbad⟩ := h
  have hz : bits w 27 26 = 0 := by
    have hrow := row_of_not_illegalWord hlegal
    omega
  rw [runCommand_of_decode (decode_pktBld_row hop hz)]
  refine exec_pktBld_of_invalid (fun k => capacity_lt_of_invalid ?_) _ s
  rw [toNat_field w 25 24 2 rfl, toNat_field w 11 0 12 rfl, field_eq_iff w 25 24 0 rfl, field_eq_iff w 25 24 1 rfl]
  exact hbad

/-- A legal word whose range leaves the memory raises `BadRange` (R108). -/
theorem runCommand_of_rangeOutside {w : Word} (hlegal : ¬ IllegalWord w) (h : RangeOutside w) (s : State) :
    runCommand w s = .next (setErr .badRange s) := by
  obtain ⟨hop, hout⟩ := h
  have hz : bits w 27 24 = 0 := by
    have hrow := row_of_not_illegalWord hlegal
    omega
  have hr : rangeLegal (field w 12 12) (field w 0 12) = false :=
    rangeLegal_of_lt (by rwa [toNat_field w 23 12 12 rfl, toNat_field w 11 0 12 rfl])
  obtain hop | hop := hop
  · exact (runCommand_of_decode (decode_crcCmp_row hop hz) s).trans (exec_crcCmp_of_illegal hr s)
  · exact (runCommand_of_decode (decode_crcX_row hop hz) s).trans (exec_crcX_of_illegal hr s)

theorem field_range_of_not_rangeOutside {w : Word} (hop : bits w 31 28 = 4 ∨ bits w 31 28 = 5) (h : ¬ RangeOutside w) :
    (field w 12 12).toNat + (field w 0 12).toNat ≤ 0x805 := by
  rw [toNat_field w 23 12 12 rfl, toNat_field w 11 0 12 rfl]
  exact Nat.not_lt.mp fun hout => h ⟨hop, hout⟩

theorem exists_kind_of_not_invalidRequest {w : Word} (hop : bits w 31 28 = 7) (h : ¬ InvalidRequest w) :
    ∃ k, kindOf (field w 24 2) = some k ∧ (field w 0 12).toNat ≤ capacity k := by
  rw [toNat_field w 11 0 12 rfl]
  have hkind : (bits w 25 24 = 0 ∧ bits w 11 0 ≤ 128) ∨ (bits w 25 24 = 1 ∧ bits w 11 0 ≤ 1024) := by
    simp only [InvalidRequest, hop, true_and] at h
    omega
  obtain ⟨hk, hl⟩ | ⟨hk, hl⟩ := hkind
  · exact ⟨.short, by rw [(field_eq_iff w 25 24 0#2 rfl).mpr hk]; rfl, hl⟩
  · exact ⟨.long, by rw [(field_eq_iff w 25 24 1#2 rfl).mpr hk]; rfl, hl⟩

/-- A word that passes every check completes: each row's command ends with code 0 (R150, R152). -/
theorem runCommand_completes {w : Word} (hlegal : ¬ IllegalWord w) (hreq : ¬ InvalidRequest w)
    (hrange : ¬ RangeOutside w) (s : State) : ∃ t, runCommand w s = .next t ∧ t.err = 0 := by
  obtain ⟨hop, hz⟩ | ⟨hop, hz⟩ | ⟨hop, hz⟩ | ⟨hop, hz⟩ | ⟨hop, hz⟩ | ⟨hop, hz, hn⟩ | ⟨hop, hz⟩ :=
    row_of_not_illegalWord hlegal
  · exact ⟨_, (runCommand_of_decode (decode_crcRst_row hop hz) s).trans (exec_crcRst s), rfl⟩
  · exact ⟨_, (runCommand_of_decode (decode_crcUpd_row hop hz) s).trans (exec_crcUpd _ s), rfl⟩
  · exact ⟨_, (runCommand_of_decode (decode_crcFin_row hop hz) s).trans (exec_crcFin s), rfl⟩
  · have hr := field_range_of_not_rangeOutside (.inl hop) hrange
    exact ⟨_, (runCommand_of_decode (decode_crcCmp_row hop hz) s).trans (exec_crcCmp_of_le hr s), rfl⟩
  · have hr := field_range_of_not_rangeOutside (.inr hop) hrange
    exact ⟨_, (runCommand_of_decode (decode_crcX_row hop hz) s).trans (exec_crcX_of_le hr s), rfl⟩
  · have hcount : (field w 16 5).toNat ≤ 16 := by rwa [toNat_field w 20 16 5 rfl]
    exact ⟨_, (runCommand_of_decode (decode_rev_row hop hz hn) s).trans (exec_rev_of_legal hcount _ s), rfl⟩
  · obtain ⟨k, hk, hl⟩ := exists_kind_of_not_invalidRequest hop hreq
    exact ⟨_, (runCommand_of_decode (decode_pktBld_row hop hz) s).trans (exec_pktBld_of_valid hk hl _ s), rfl⟩

end Sys2Proof.Machine

namespace Sys2Proof.Proofs

open Sys2Proof.Machine Sys2Proof.Claims

/-- Settles O8: the step of the write is `runCommand`, which each class of word ends in its own way. -/
theorem codeOfFirstFailingCheck : Obligations.CodeOfFirstFailingCheck := by
  refine ⟨fun s t w rest hs h => ?_, fun s a d rest hs ha => step_write_of_not_hostWrites ha hs⟩
  refine ⟨fun hill => ?_, fun hlegal hreq => ?_, fun hlegal hrange => ?_, fun hlegal hreq hrange => ?_⟩
  · cases (step_illegalWord hill hs).symm.trans h
    rfl
  · rw [step_cmdWrite hs, runCommand_of_invalidRequest hlegal hreq] at h
    cases h
    rfl
  · rw [step_cmdWrite hs, runCommand_of_rangeOutside hlegal hrange] at h
    cases h
    rfl
  · obtain ⟨u, hu, herr⟩ := runCommand_completes hlegal hreq hrange (respond (.done 0) (takeInput s rest))
    cases ((step_cmdWrite hs).trans hu).symm.trans h
    exact herr

/-- Settles O9: the write runs its word on the acknowledged state, and only a raise leaves a non-zero code. -/
theorem failingCommandChangesOnlyErr : Obligations.FailingCommandChangesOnlyErr := by
  refine ⟨fun _ _ => rfl, fun s t w rest hs h => ?_⟩
  rw [step_cmdWrite hs] at h
  obtain ⟨u, hu, -, hresp⟩ := runCommand_next_port w (respond (.done 0) (takeInput s rest))
  cases hu.symm.trans h
  exact ⟨hresp, runCommand_changes_only_err_of_err_ne_zero h⟩

/-- Settles O13: every kind of step answers a next state, and no word run from `CMD` reads the code. -/
theorem blockNeverStops : Obligations.BlockNeverStops :=
  ⟨exists_step_next, fun _ _ _ e hs => step_cmdWrite_ignores_err hs e⟩

end Sys2Proof.Proofs

/-! PROOFS of the family 'other': the round trip of the encoding, what each kind of step leaves alone and the invariant
that follows, the inferences about XMODEM CRCs, reset, and the free bytes. -/

namespace Sys2Proof.Machine

open Sys2Proof.Claims

/-! ### What a step can change, said once for the registers, the memory and the invariant -/

/-- A word run from `CMD` writes `ACC`, writes `RES`, stores a packet, or writes its code alone. -/
theorem runCommand_effect {w : Word} {s t : State} (h : runCommand w s = .next t) :
    (∃ v, (decode w = .ok .crcRst ∨ ∃ b, decode w = .ok (.crcUpd b)) ∧ t = setErr .ok (setAcc v s)) ∨
    (∃ v, (decode w = .ok .crcFin ∨ (∃ st l, decode w = .ok (.crcCmp st l)) ∨
      (∃ st l, decode w = .ok (.crcX st l)) ∨ ∃ x n, decode w = .ok (.rev x n)) ∧ t = setErr .ok (setRes v s)) ∨
    (∃ kind k seq len, decode w = .ok (.pktBld kind seq len) ∧ len.toNat ≤ capacity k ∧
      t = setErr .ok (storePacket k seq len s)) ∨
    ∃ c, t = setErr c s := by
  obtain ⟨i, hw, e⟩ | ⟨-, -, e⟩ := runCommand_cases w s
  · rw [hw]
    obtain ⟨v, hi, e'⟩ | ⟨v, hi, e'⟩ | ⟨kind, k, seq, len, rfl, -, hl, e'⟩ | ⟨c, -, -, e'⟩ := exec_cases i s
    · cases (e.trans e').symm.trans h
      exact .inl ⟨v, by simpa using hi, rfl⟩
    · cases (e.trans e').symm.trans h
      refine .inr (.inl ⟨v, ?_, rfl⟩)
      obtain rfl | ⟨st, l, rfl, -⟩ | ⟨st, l, rfl, -⟩ | ⟨x, n, rfl, -⟩ := hi
      · exact .inl rfl
      · exact .inr (.inl ⟨st, l, rfl⟩)
      · exact .inr (.inr (.inl ⟨st, l, rfl⟩))
      · exact .inr (.inr (.inr ⟨x, n, rfl⟩))
    · cases (e.trans e').symm.trans h
      exact .inr (.inr (.inl ⟨kind, k, seq, len, rfl, hl, rfl⟩))
    · cases (e.trans e').symm.trans h
      exact .inr (.inr (.inr ⟨c, rfl⟩))
  · cases e.symm.trans h
    exact .inr (.inr (.inr ⟨.illegalCommand, rfl⟩))

/-- A step is a reset, a command, a host write to `PAY`, or changes nothing but the port. -/
theorem step_effect {s t : State} (h : step s = .next t) :
    (∃ x rest, s.inputs = .reset x :: rest ∧ t = resetBlock (takeInput s rest)) ∨
    (∃ w rest, s.inputs = cmdWrite w :: rest ∧ runCommand w (respond (.done 0) (takeInput s rest)) = .next t) ∨
    (∃ p d rest, s.inputs = .txn (.write p d) :: rest ∧ p.toNat ≤ 0x3FF ∧
      t = respond (.done 0) (memWrite p.toNat [d.extractLsb' 0 8] (takeInput s rest))) ∨
    t = { s with inputs := t.inputs, resp := t.resp } := by
  obtain ⟨-, e⟩ | ⟨x, rest, hs, e⟩ | ⟨a, rest, -, e⟩ | ⟨p, d, rest, hs, hp, e⟩ | ⟨a, d, rest, -, -, -, e⟩ |
    ⟨w, rest, hs, e⟩ := step_cases s
  · cases e.symm.trans h; exact .inr (.inr (.inr rfl))
  · cases e.symm.trans h; exact .inl ⟨x, rest, hs, rfl⟩
  · cases e.symm.trans h; exact .inr (.inr (.inr rfl))
  · cases e.symm.trans h; exact .inr (.inr (.inl ⟨p, d, rest, hs, hp, rfl⟩))
  · cases e.symm.trans h; exact .inr (.inr (.inr rfl))
  · exact .inr (.inl ⟨w, rest, hs, e ▸ h⟩)

/-! ### The invariant (R25, R33, R35) -/

theorem HoldsPacket.congr {s t : State} {k : PacketKind} {seq : BitVec 12} {payload : List Byte}
    (h : HoldsPacket s k seq payload) (hlen : t.pktLen = s.pktLen)
    (hread : ∀ x, Config.pktBase ≤ x → readByte t x = readByte s x) : HoldsPacket t k seq payload := by
  obtain ⟨hfit, hsize, hpacket⟩ := h
  exact ⟨hfit, hlen ▸ hsize, (memRead_congr fun j _ => hread _ (Nat.le_add_right _ j)).trans hpacket⟩

/-- What changes neither `PKT_LEN` nor the packet buffer keeps the invariant, if its memory and its code are good. -/
theorem BlockInv.of_packet_kept {s t : State} (h : BlockInv s) (hwf : t.mem.wf = true) (hcode : t.err.toNat ≤ 3)
    (hlen : t.pktLen = s.pktLen) (hread : ∀ x, Config.pktBase ≤ x → readByte t x = readByte s x) : BlockInv t := by
  refine ⟨hwf, hcode, ?_⟩
  rw [hlen]
  exact h.packet.imp_right fun ⟨k, seq, payload, hp⟩ => ⟨k, seq, payload, hp.congr hlen hread⟩

theorem blockInv_resetBlock (s : State) : BlockInv (resetBlock s) := ⟨wf_nil, Nat.zero_le 3, .inl rfl⟩

/-- A host write to `PAY` stays below the packet buffer. -/
theorem BlockInv.memWrite_payload {s : State} (h : BlockInv s) {p : Nat} (hp : p ≤ 0x3FF) (b : Byte) :
    BlockInv (memWrite p [b] s) := by
  have hfit : p + [b].length ≤ 0x805 := by rw [List.length_singleton]; omega
  refine h.of_packet_kept (wf_write s.mem p [b] h.memory hfit) h.code rfl fun x hx => ?_
  have hne : x ≠ p := by have : 0x400 ≤ x := hx; omega
  rw [readByte_memWrite_singleton, if_neg hne]

/-- A build writes one whole packet inside `M`. -/
theorem BlockInv.setErr_storePacket {s : State} (h : BlockInv s) {k : PacketKind} (seq : BitVec 12) {len : BitVec 12}
    (hl : len.toNat ≤ capacity k) : BlockInv (setErr .ok (storePacket k seq len s)) := by
  have hsize : (buildPacket k seq (payloadBytes s len)).length = serializedLen k :=
    buildPacket_length seq (by simpa [payloadBytes] using hl)
  have hfit : Config.pktBase + (buildPacket k seq (payloadBytes s len)).length ≤ Config.memSize :=
    hsize ▸ packet_fits k
  exact ⟨wf_write s.mem _ _ h.memory hfit, codeBits_le .ok,
    .inr ⟨k, seq, payloadBytes s len, holdsPacket_storePacket seq s hl⟩⟩

theorem BlockInv.of_runCommand {w : Word} {s t : State} (hinv : BlockInv s) (h : runCommand w s = .next t) :
    BlockInv t := by
  obtain ⟨v, -, rfl⟩ | ⟨v, -, rfl⟩ | ⟨kind, k, seq, len, -, hl, rfl⟩ | ⟨c, rfl⟩ := runCommand_effect h
  · exact hinv.of_packet_kept hinv.memory (codeBits_le .ok) rfl fun _ _ => rfl
  · exact hinv.of_packet_kept hinv.memory (codeBits_le .ok) rfl fun _ _ => rfl
  · exact hinv.setErr_storePacket seq hl
  · exact hinv.of_packet_kept hinv.memory (codeBits_le c) rfl fun _ _ => rfl

/-- The invariant does not speak of the port. -/
theorem BlockInv.set_port {s : State} (h : BlockInv s) (es : List HostEvent) (r : Option Resp) :
    BlockInv { s with inputs := es, resp := r } :=
  h.of_packet_kept h.memory h.code rfl fun _ _ => rfl

/-! ### The XMODEM update without feedback (R102, R111) -/

/-- Where the data bit is the accumulator's top bit, no polynomial is brought in. -/
theorem crcBit_xmodem_of_topBit (acc : Half) : crcBit xmodemCfg acc (acc.getLsbD 15) = acc <<< 1 := by
  simp [crcBit_xmodem]

/-- Where the byte is the accumulator's high byte, the update only shifts: after `k` bits the next data bit is again the
top bit. -/
theorem crcUpdate_xmodem_of_highByte (acc : Half) : crcUpdate xmodemCfg acc (acc.extractLsb' 8 8) = acc <<< 8 := by
  have hbit : ∀ k i, k + i = 7 → crcBit xmodemCfg (acc <<< k) ((acc.extractLsb' 8 8).getLsbD i) = acc <<< (k + 1) := by
    intro k i hki
    have htop : (acc.extractLsb' 8 8).getLsbD i = (acc <<< k).getLsbD 15 := by
      simp [show i < 8 by omega, show ¬ 15 < k by omega, show 15 - k = 8 + i by omega,
        BitVec.getLsbD_eq_getElem (show 8 + i < 16 by omega)]
    rw [htop, crcBit_xmodem_of_topBit, BitVec.shiftLeft_add]
  have hfirst := hbit 0 7 rfl
  rw [BitVec.shiftLeft_zero] at hfirst
  have hbyte : dataByte xmodemCfg (acc.extractLsb' 8 8) = acc.extractLsb' 8 8 := rfl
  simp only [crcUpdate, hbyte, List.foldl_cons, List.foldl_nil, hfirst, hbit 1 6 rfl, hbit 2 5 rfl, hbit 3 4 rfl,
    hbit 4 3 rfl, hbit 5 2 rfl, hbit 6 1 rfl, hbit 7 0 rfl]

theorem shiftLeft_two_bytes (acc : Half) : acc <<< 8 <<< 8 = 0#16 := by
  rw [← BitVec.shiftLeft_add]
  exact BitVec.shiftLeft_eq_zero (Nat.le_refl 16)

theorem highByte_shiftLeft (acc : Half) : (acc <<< 8).extractLsb' 8 8 = acc.extractLsb' 0 8 := by
  apply BitVec.eq_of_getLsbD_eq
  intro i hi
  simp [hi, show 8 + i < 16 by omega, BitVec.getLsbD_eq_getElem (show i < 16 by omega)]

/-- The XMODEM update is linear over exclusive or. -/
theorem crcUpdate_xmodem_xor (a b : Half) (x y : Byte) :
    crcUpdate xmodemCfg (a ^^^ b) (x ^^^ y) = crcUpdate xmodemCfg a x ^^^ crcUpdate xmodemCfg b y := by
  have hbyte : ∀ z : Byte, dataByte xmodemCfg z = z := fun _ => rfl
  simp only [crcUpdate, hbyte, List.foldl_cons, List.foldl_nil, BitVec.getLsbD_xor, crcBit_xmodem_xor]

theorem crcUpdate_xmodem_zero : crcUpdate xmodemCfg 0#16 0#8 = 0#16 := crcUpdate_xmodem_of_highByte 0#16

/-- A byte that stands in the accumulator's high half meets itself, and is shifted out. -/
theorem crcUpdate_xmodem_self (b : Byte) : crcUpdate xmodemCfg (b.setWidth 16 <<< 8) b = 0#16 := by
  have hhigh : (b.setWidth 16 <<< 8).extractLsb' 8 8 = b := by
    rw [highByte_shiftLeft]
    ext i hi
    simp [show i < 16 by omega, BitVec.getLsbD_eq_getElem hi]
  calc crcUpdate xmodemCfg (b.setWidth 16 <<< 8) b
      = crcUpdate xmodemCfg (b.setWidth 16 <<< 8) ((b.setWidth 16 <<< 8).extractLsb' 8 8) := by rw [hhigh]
    _ = b.setWidth 16 <<< 8 <<< 8 := crcUpdate_xmodem_of_highByte _
    _ = 0#16 := shiftLeft_two_bytes _

/-- A block followed by its own trailer has CRC 0: each trailer byte meets itself in the accumulator's high byte. -/
theorem xmodemCrc_append_crcTrailer (bs : List Byte) : xmodemCrc (bs ++ crcTrailer (xmodemCrc bs)) = 0x0000#16 := by
  rw [xmodemCrc_eq_foldl, List.foldl_append, ← xmodemCrc_eq_foldl]
  generalize xmodemCrc bs = crc
  rw [crcTrailer, List.foldl_cons, List.foldl_cons, List.foldl_nil, crcUpdate_xmodem_of_highByte,
    ← highByte_shiftLeft, crcUpdate_xmodem_of_highByte, shiftLeft_two_bytes]

/-! ### The residue over block and trailer (R114, R131) -/

/-- The block and the trailer of a packet, read as one range. -/
theorem HoldsPacket.memRead_block_trailer {s : State} {k : PacketKind} {seq : BitVec 12} {payload : List Byte}
    (h : HoldsPacket s k seq payload) :
    memRead s 0x403 (capacity k + 2) = paddedBlock k payload ++ crcTrailer (xmodemCrc (paddedBlock k payload)) := by
  have hlen := buildPacket_length seq h.payload_fits
  apply List.ext_getElem?
  intro j
  have hpkt : (buildPacket k seq payload)[3 + j]? =
      (paddedBlock k payload ++ crcTrailer (xmodemCrc (paddedBlock k payload)))[j]? := by
    rw [buildPacket, List.append_assoc, List.getElem?_append_right (Nat.le_add_right 3 j)]
    simp
  rw [← hpkt]
  by_cases hj : j < capacity k + 2
  · rw [memRead_getElem? s _ _ j hj, ← h.readByte_eq (by rw [serializedLen_eq]; omega), ← Nat.add_assoc]
  · rw [List.getElem?_eq_none (by simpa using hj),
      List.getElem?_eq_none (by rw [hlen, serializedLen_eq]; omega)]

theorem HoldsPacket.exec_crcX_block_trailer {s : State} {k : PacketKind} {seq : BitVec 12} {payload : List Byte}
    (h : HoldsPacket s k seq payload) :
    exec (.crcX 0x403#12 (BitVec.ofNat 12 (capacity k + 2))) s = .next { s with res := 0x0000#16, err := 0 } := by
  have hcap := capacity_cases k
  have hlen : (BitVec.ofNat 12 (capacity k + 2)).toNat = capacity k + 2 := by rw [BitVec.toNat_ofNat]; omega
  have hstart : (0x403#12).toNat = 0x403 := rfl
  rw [exec_crcX_of_le (by omega), rangeBytes, hlen, hstart, h.memRead_block_trailer, xmodemCrc_append_crcTrailer]

/-! ### An accumulator wider than 16 bits (R23) -/

/-- A 16-bit mask keeps only the low 16 bits of a wider value. -/
theorem and_setWidth_mask {w : Nat} (x : BitVec w) (m : Half) :
    x &&& m.setWidth w = (x.setWidth 16 &&& m).setWidth w := by
  apply BitVec.eq_of_getLsbD_eq
  intro i hi
  by_cases h : i < 16
  · simp [hi, h]
  · simp [h, BitVec.getLsbD_of_ge m i (Nat.not_lt.mp h)]

theorem setWidth_ne_zero_iff {w : Nat} (hw : 16 ≤ w) (x : Half) : x.setWidth w ≠ 0 ↔ x ≠ 0 := by
  refine not_congr ⟨fun h => ?_, fun h => ?_⟩
  · have hback := congrArg (BitVec.setWidth 16) h
    simpa [hw] using hback
  · simp [h]

/-- The low 16 bits of the wide engine after one data bit are the 16-bit engine's. -/
theorem setWidth_wideBit {w : Nat} (hw : 16 ≤ w) (cfg : CrcConfig) (acc : BitVec w) (d : Bool) :
    (wideBit cfg acc d).setWidth 16 = crcBit cfg (acc.setWidth 16) d := by
  have htop : (if d then acc &&& cfg.msbMask.setWidth w ^^^ cfg.msbMask.setWidth w else acc &&& cfg.msbMask.setWidth w) =
      (if d then acc.setWidth 16 &&& cfg.msbMask ^^^ cfg.msbMask else acc.setWidth 16 &&& cfg.msbMask).setWidth w := by
    cases d with
    | false => exact and_setWidth_mask acc cfg.msbMask
    | true => rw [if_pos rfl, if_pos rfl, and_setWidth_mask, BitVec.setWidth_xor]
  simp only [wideBit, crcBit, htop, setWidth_ne_zero_iff hw]
  rw [apply_ite (BitVec.setWidth 16), BitVec.setWidth_xor, BitVec.setWidth_shiftLeft_of_le hw,
    BitVec.setWidth_setWidth_of_le _ hw, BitVec.setWidth_eq]

theorem setWidth_wideUpdate {w : Nat} (hw : 16 ≤ w) (cfg : CrcConfig) (acc : BitVec w) (byte : Byte) :
    (wideUpdate cfg acc byte).setWidth 16 = crcUpdate cfg (acc.setWidth 16) byte := by
  simp only [wideUpdate, crcUpdate, List.foldl_cons, List.foldl_nil, setWidth_wideBit hw]

theorem setWidth_foldl_wideUpdate {w : Nat} (hw : 16 ≤ w) (cfg : CrcConfig) (acc : BitVec w) (bs : List Byte) :
    (bs.foldl (wideUpdate cfg) acc).setWidth 16 = bs.foldl (crcUpdate cfg) (acc.setWidth 16) :=
  (List.foldl_hom (BitVec.setWidth 16) fun x b => (setWidth_wideUpdate hw cfg x b).symm).symm

/-- The final mask is 16 bits wide, so finalize reads only the low 16 bits. -/
theorem wideFinalize_eq {w : Nat} (hw : 16 ≤ w) (cfg : CrcConfig) (acc : BitVec w) :
    wideFinalize cfg acc = (crcFinalize cfg (acc.setWidth 16)).setWidth w := by
  rw [wideFinalize, crcFinalize, and_setWidth_mask]
  cases cfg.refout with
  | false => simp [hw]
  | true => simp [hw]

/-! ### Runs (R12, R51) -/

/-- A step serves the first event and leaves the others to come. -/
theorem step_inputs {s t : State} {e : HostEvent} {rest : List HostEvent} (hs : s.inputs = e :: rest)
    (h : step s = .next t) : t.inputs = rest := by
  obtain ⟨-, ht⟩ | ⟨x, r, hi, ht⟩ | ⟨a, r, hi, ht⟩ | ⟨p, d, r, hi, -, ht⟩ | ⟨a, d, r, hi, -, -, ht⟩ | ⟨w, r, hi, ht⟩ :=
    step_cases s
  · cases ht.symm.trans h; rw [noAck_inputs, takeInput_inputs, hs, List.tail_cons]
  · cases ht.symm.trans h; cases hs.symm.trans hi; rfl
  · cases ht.symm.trans h; cases hs.symm.trans hi; rfl
  · cases ht.symm.trans h; cases hs.symm.trans hi; rfl
  · cases ht.symm.trans h; cases hs.symm.trans hi; rfl
  · obtain ⟨u, hu, hinputs, -⟩ := runCommand_next_port w (respond (.done 0) (takeInput s r))
    cases (ht.trans hu).symm.trans h
    cases hs.symm.trans hi
    exact hinputs

theorem run_succ {s t : State} (h : step s = .next t) (n : Nat) :
    Sys2Proof.core.run (n + 1) s = Sys2Proof.core.run n t := by
  have hstep : Sys2Proof.core.step s = .next t := h
  simp only [Host.Core.run, hstep]

/-- The write of a command's word runs the command on the acknowledged state. -/
theorem step_cmdWrite_encode {s : State} {i : Instr} {rest : List HostEvent} (hwf : i.wf = true)
    (h : s.inputs = cmdWrite (encode i) :: rest) : step s = exec i (respond (.done 0) (takeInput s rest)) :=
  (step_cmdWrite h).trans (runCommand_of_decode (decode_encode hwf) _)

/-- One `CRC.UPD` per byte folds the update over the bytes; the induction takes the bytes in order. -/
theorem run_crcUpds (bs : List Byte) (s : State) (rest : List HostEvent) (n : Nat)
    (h : s.inputs = bs.map (fun b => cmdWrite (encode (.crcUpd b))) ++ rest) :
    ∃ t : State, Sys2Proof.core.run (bs.length + n) s = Sys2Proof.core.run n t ∧ t.inputs = rest ∧
      t.acc = bs.foldl (crcUpdate xmodemCfg) s.acc ∧ t.mem = s.mem ∧ t.pktLen = s.pktLen := by
  induction bs generalizing s with
  | nil => exact ⟨s, by rw [List.length_nil, Nat.zero_add], h, rfl, rfl, rfl⟩
  | cons b bs ih =>
    have hstep := (step_cmdWrite_encode rfl h).trans (exec_crcUpd b _)
    obtain ⟨t, hrun, hrest⟩ := ih _ (step_inputs h hstep)
    refine ⟨t, ?_, hrest⟩
    rw [List.length_cons, Nat.add_right_comm, run_succ hstep]
    exact hrun

/-! ### A payload byte over a run without reset (R65) -/

/-- A word run from `CMD` changes a byte only by a successful build whose packet it lies in (R131, R134). -/
theorem runCommand_readByte_ne {w : Word} {s t : State} {a : Nat} (h : runCommand w s = .next t)
    (hne : readByte t a ≠ readByte s a) :
    (∃ k q l, decode w = .ok (.pktBld k q l)) ∧ t.err = 0 ∧ 0x400 ≤ a ∧ a < 0x400 + t.pktLen.toNat := by
  obtain ⟨v, -, rfl⟩ | ⟨v, -, rfl⟩ | ⟨kind, k, seq, len, hw, hl, rfl⟩ | ⟨c, rfl⟩ := runCommand_effect h
  · exact absurd rfl hne
  · exact absurd rfl hne
  · have hin : ¬ (a < Config.pktBase ∨ Config.pktBase + serializedLen k ≤ a) := fun hout =>
      hne (readByte_storePacket_outside seq len s hl hout)
    rw [not_or, Nat.not_lt, Nat.not_le] at hin
    refine ⟨⟨kind, seq, len, hw⟩, rfl, hin.1, ?_⟩
    rw [setErr_pktLen, storePacket_pktLen]
    exact hin.2
  · exact absurd rfl hne

/-- The only steps that change a byte of memory (R35, R65). -/
theorem step_readByte_ne {s t : State} {a : Nat} (h : step s = .next t) (hne : readByte t a ≠ readByte s a) :
    (∃ x rest, s.inputs = .reset x :: rest) ∨
    (∃ p d rest, s.inputs = .txn (.write p d) :: rest ∧ p.toNat = a ∧ a ≤ 0x3FF) ∨
    (∃ w rest k q l, s.inputs = cmdWrite w :: rest ∧ decode w = .ok (.pktBld k q l) ∧ t.err = 0 ∧
      0x400 ≤ a ∧ a < 0x400 + t.pktLen.toNat) := by
  obtain ⟨x, rest, hs, -⟩ | ⟨w, rest, hs, hw⟩ | ⟨p, d, rest, hs, hp, rfl⟩ | ht := step_effect h
  · exact .inl ⟨x, rest, hs⟩
  · obtain ⟨⟨k, q, l, hdec⟩, herr, hin⟩ := runCommand_readByte_ne hw hne
    exact .inr (.inr ⟨w, rest, k, q, l, hs, hdec, herr, hin⟩)
  · have hpa : a = p.toNat := by
      by_contra hpa
      rw [readByte_respond, readByte_memWrite_singleton, if_neg hpa] at hne
      exact hne rfl
    exact .inr (.inl ⟨p, d, rest, hs, hpa.symm, hpa ▸ hp⟩)
  · rw [ht] at hne
    exact absurd rfl hne

/-- A run without reset and without a write to a payload byte keeps the byte. -/
theorem run_keeps_payload_byte (es : List HostEvent) (s : State) (rest : List HostEvent) (n : Nat) {a : PortAddr}
    (ha : a.toNat ≤ 0x3FF) (hes : ∀ e, e ∈ es → (∀ x, e ≠ .reset x) ∧ ∀ d, e ≠ .txn (.write a d))
    (h : s.inputs = es ++ rest) :
    ∃ t : State, Sys2Proof.core.run (es.length + n) s = Sys2Proof.core.run n t ∧ t.inputs = rest ∧
      readByte t a.toNat = readByte s a.toNat := by
  induction es generalizing s with
  | nil => exact ⟨s, by rw [List.length_nil, Nat.zero_add], h, rfl⟩
  | cons e es ih =>
    obtain ⟨u, hu⟩ := exists_step_next s
    have hkept : readByte u a.toNat = readByte s a.toNat := by
      by_contra hne
      obtain ⟨hreset, hwrite⟩ := hes e List.mem_cons_self
      obtain ⟨x, r, hs⟩ | ⟨p, d, r, hs, hp, -⟩ | ⟨-, -, -, -, -, -, -, -, hge, -⟩ := step_readByte_ne hu hne
      · cases h.symm.trans hs
        exact hreset x rfl
      · cases h.symm.trans hs
        exact hwrite d (BitVec.eq_of_toNat_eq hp ▸ rfl)
      · omega
    obtain ⟨t, hrun, hinputs, hread⟩ :=
      ih u (fun e' he' => hes e' (List.mem_cons_of_mem e he')) (step_inputs h hu)
    refine ⟨t, ?_, hinputs, hread.trans hkept⟩
    rw [List.length_cons, Nat.add_right_comm, run_succ hu]
    exact hrun

/-! ### The free bytes (R172) -/

/-- A range of written bytes reads the same in every generation of free bytes. -/
theorem Written.memRead_memGen {s : State} {a n : Nat} (h : Written s a n) (g : Nat) :
    memRead { s with memGen := g } a n = memRead s a n := by
  refine memRead_congr fun j hj => ?_
  obtain ⟨b, hb⟩ := Option.isSome_iff_exists.mp (h j hj)
  rw [readByte_of_written hb]
  exact readByte_of_written hb

theorem storePacket_memGen_of_written {k : PacketKind} (seq : BitVec 12) {len : BitVec 12} {s : State}
    (h : Written s Config.payBase len.toNat) (g : Nat) :
    storePacket k seq len { s with memGen := g } = { storePacket k seq len s with memGen := g } := by
  rw [storePacket, payloadBytes, h.memRead_memGen g]
  rfl

/-- A range command reads its legal range and nothing else of memory. -/
theorem exec_crcX_memGen {st l : BitVec 12} {s t : State} (hduty : DutyMet (.crcX st l) s)
    (h : exec (.crcX st l) s = .next t) (g : Nat) :
    exec (.crcX st l) { s with memGen := g } = .next { t with memGen := g } := by
  cases hr : rangeLegal st l with
  | true =>
    rw [exec_crcX_of_legal hr] at h ⊢
    cases h
    rw [rangeBytes, (hduty hr).memRead_memGen g]
    rfl
  | false =>
    rw [exec_crcX_of_illegal hr] at h ⊢
    cases h
    rfl

theorem exec_rev_memGen {v : BitVec 16} {n : BitVec 5} {s t : State} (h : exec (.rev v n) s = .next t) (g : Nat) :
    exec (.rev v n) { s with memGen := g } = .next { t with memGen := g } := by
  simp only [exec, execRev] at h ⊢
  split_ifs at h ⊢
  · cases h; rfl
  · cases h; rfl

theorem exec_pktBld_memGen {kind : BitVec 2} {seq len : BitVec 12} {s t : State}
    (hduty : DutyMet (.pktBld kind seq len) s) (h : exec (.pktBld kind seq len) s = .next t) (g : Nat) :
    exec (.pktBld kind seq len) { s with memGen := g } = .next { t with memGen := g } := by
  by_cases hv : ∃ k, kindOf kind = some k ∧ len.toNat ≤ capacity k
  · obtain ⟨k, hk, hl⟩ := hv
    rw [exec_pktBld_of_valid hk hl] at h ⊢
    cases h
    rw [storePacket_memGen_of_written seq (hduty k hk hl)]
    rfl
  · have hi : ∀ k, kindOf kind = some k → capacity k < len.toNat := by simpa using hv
    rw [exec_pktBld_of_invalid hi] at h ⊢
    cases h
    rfl

/-! ### Reset (R170) -/

theorem step_reset {s : State} {x : Option Txn} {rest : List HostEvent} (h : s.inputs = .reset x :: rest) :
    step s = .next (resetBlock (takeInput s rest)) := by
  simp only [step, h, serve]

end Sys2Proof.Machine

namespace Sys2Proof.Proofs

open Sys2Proof.Machine Sys2Proof.Claims

/-- Settles O1, by the seven rows of `decode_encode`. -/
theorem decodeInvertsEncode : Obligations.DecodeInvertsEncode := fun _ h => decode_encode h

/-- Settles O2: one half of `decode_eq_ok_iff`. -/
theorem encodeInvertsDecode : Obligations.EncodeInvertsDecode := fun w i h => (decode_eq_ok_iff w i).mp h

/-- Settles O45: reset clears the packet, a command is `BlockInv.of_runCommand`, and a write to `PAY` lies below `PKT`. -/
theorem stepKeepsInvariant : Obligations.StepKeepsInvariant := by
  intro s t hinv h
  obtain ⟨x, rest, -, rfl⟩ | ⟨w, rest, -, hw⟩ | ⟨p, d, rest, -, hp, rfl⟩ | ht := step_effect h
  · exact blockInv_resetBlock _
  · exact BlockInv.of_runCommand (hinv.set_port rest (some (.done 0))) hw
  · exact (hinv.memWrite_payload hp (d.extractLsb' 0 8)).set_port rest (some (.done 0))
  · rw [ht]
    exact hinv.set_port _ _

/-- Settles O18: by linearity the byte splits off, and with its own value in the high half it leaves 0. -/
theorem updateDependsOnXor : Obligations.UpdateDependsOnXor := by
  intro acc byte
  calc crcUpdate xmodemCfg acc byte
      = crcUpdate xmodemCfg (acc ^^^ (byte.setWidth 16 <<< 8) ^^^ (byte.setWidth 16 <<< 8)) (0#8 ^^^ byte) := by
        rw [BitVec.xor_assoc, BitVec.xor_self, BitVec.xor_zero, BitVec.zero_xor]
    _ = crcUpdate xmodemCfg (acc ^^^ (byte.setWidth 16 <<< 8)) 0#8 := by
        rw [crcUpdate_xmodem_xor, crcUpdate_xmodem_self, BitVec.xor_zero]

/-- Settles O19: a zero byte leaves the zero accumulator at zero; any number of them, by induction on the number. -/
theorem zeroBytesInvisible : Obligations.ZeroBytesInvisible := by
  have hcons : ∀ bs, xmodemCrc (0#8 :: bs) = xmodemCrc bs := fun bs => by
    rw [xmodemCrc_eq_foldl, List.foldl_cons, crcUpdate_xmodem_zero, ← xmodemCrc_eq_foldl]
  refine ⟨hcons, fun n => ?_⟩
  induction n with
  | zero => rfl
  | succ n ih => rw [List.replicate_succ, hcons, ih]

/-- Settles O20: update commutes with cutting to 16 bits, and finalize reads only those. -/
theorem widthDoesNotMatter : Obligations.WidthDoesNotMatter := by
  intro w cfg b bs hw
  rw [wideFinalize_eq hw, setWidth_foldl_wideUpdate hw, BitVec.setWidth_setWidth_of_le _ hw, BitVec.setWidth_eq]
  rfl

/-- Settles O28, by the four ways a command ends. -/
theorem engineCommandsFrame : Obligations.EngineCommandsFrame := by
  intro i s t hi h
  obtain ⟨v, hacc, e⟩ | ⟨v, hres, e⟩ | ⟨kind, k, seq, len, hbld, -⟩ | ⟨c, -, -, e⟩ := exec_cases i s
  · rw [e] at h
    cases h
    refine ⟨rfl, fun _ => rfl, rfl, rfl, rfl, rfl, fun hrst hupd => ?_, fun _ => rfl⟩
    obtain rfl | ⟨b, rfl⟩ := hacc
    · exact absurd rfl hrst
    · exact absurd rfl (hupd b)
  · rw [e] at h
    cases h
    refine ⟨rfl, fun _ => rfl, rfl, rfl, rfl, rfl, fun _ _ => rfl, fun hkept => ?_⟩
    obtain rfl | ⟨b, rfl⟩ | herr := hkept
    · simp at hres
    · simp at hres
    · exact absurd rfl herr
  · exact absurd hbld (hi kind seq len)
  · rw [e] at h
    cases h
    exact ⟨rfl, fun _ => rfl, rfl, rfl, rfl, rfl, fun _ _ => rfl, fun _ => rfl⟩

/-- Settles O29: `CRC.RST` starts the fold at 0, `run_crcUpds` folds the bytes and the XMODEM finalize changes nothing. -/
theorem streamingGivesXmodemCrc : Obligations.StreamingGivesXmodemCrc := by
  intro s bs rest hs
  have hrst := (step_cmdWrite_encode (i := .crcRst) rfl hs).trans (exec_crcRst _)
  obtain ⟨u, hrun, hinputs, hacc, hmem, hlen⟩ := run_crcUpds bs _ _ 1 (step_inputs hs hrst)
  have hfin := (step_cmdWrite_encode (i := .crcFin) rfl hinputs).trans (exec_crcFin_of_acc hacc)
  exact ⟨_, (run_succ hrst _).trans (hrun.trans (run_succ hfin 0)), (xmodemCrc_eq_foldl bs).symm, rfl, rfl, hmem, hlen⟩

/-- Settles O33: the build holds its packet, whose block and trailer have CRC 0 together. -/
theorem residueIsZero : Obligations.ResidueIsZero := by
  intro s t kind seq len cap mark hrow hlen h
  obtain ⟨k, hk, rfl, -⟩ := kindOf_of_kindRow hrow
  exact (holdsPacket_of_exec_pktBld_of_valid hk hlen h).exec_crcX_block_trailer

/-- Settles O40: the four effects of a command each write one register, and no other step but reset writes any. -/
theorem registersChangeOnlyByTheirWriters : Obligations.RegistersChangeOnlyByTheirWriters := by
  intro s t h
  obtain ⟨x, rest, hs, -⟩ | ⟨w, rest, hs, hw⟩ | ⟨p, d, rest, -, -, rfl⟩ | ht := step_effect h
  · exact ⟨fun _ => .inl ⟨x, rest, hs⟩, fun _ => .inl ⟨x, rest, hs⟩, fun _ => .inl ⟨x, rest, hs⟩⟩
  · obtain ⟨v, hdec, rfl⟩ | ⟨v, hdec, rfl⟩ | ⟨kind, k, seq, len, hdec, -, rfl⟩ | ⟨c, rfl⟩ := runCommand_effect hw
    · exact ⟨fun _ => .inr ⟨w, rest, hs, hdec⟩, absurd rfl, absurd rfl⟩
    · exact ⟨absurd rfl, fun _ => .inr ⟨w, rest, hs, rfl, hdec⟩, absurd rfl⟩
    · exact ⟨absurd rfl, absurd rfl, fun _ => .inr ⟨w, rest, kind, seq, len, hs, hdec, rfl⟩⟩
    · exact ⟨absurd rfl, absurd rfl, absurd rfl⟩
  · exact ⟨absurd rfl, absurd rfl, absurd rfl⟩
  · rw [ht]
    exact ⟨absurd rfl, absurd rfl, absurd rfl⟩

/-- Settles O41, by `step_readByte_ne`. -/
theorem memoryChangesOnlyByItsWriters : Obligations.MemoryChangesOnlyByItsWriters :=
  fun _ _ _ h hne => step_readByte_ne h hne

/-- Settles O42: the write puts the byte there, the events between keep it, and the read answers it. -/
theorem readReturnsLastWrite : Obligations.ReadReturnsLastWrite := by
  intro s a d es rest ha hes hs
  obtain ⟨u, hrun, hinputs, hbyte⟩ := run_keeps_payload_byte es _ _ 1 ha hes (step_inputs hs (step_payWrite ha hs))
  refine ⟨_, (run_succ (step_payWrite ha hs) _).trans (hrun.trans (run_succ (step_read hinputs) 0)), ?_, rfl⟩
  rw [readResponse_memory (by omega), hbyte, readByte_respond, readByte_memWrite_singleton, if_pos rfl]

/-- Settles O47: three commands read memory, each only bytes the duty covers; the others read none. -/
theorem freeBytesDoNotMatter : Obligations.FreeBytesDoNotMatter := by
  intro i s t g hduty h
  cases i with
  | crcRst => cases h; rfl
  | crcUpd b => cases h; rfl
  | crcFin => cases h; rfl
  | crcCmp st l => rw [exec_crcCmp_eq_exec_crcX] at h ⊢; exact exec_crcX_memGen hduty h g
  | crcX st l => exact exec_crcX_memGen hduty h g
  | rev v n => exact exec_rev_memGen h g
  | pktBld kind seq len => exact exec_pktBld_memGen hduty h g

/-- Settles O5: the seven words are the words of their commands, which `decode_encode` gives back. -/
theorem vectorWordsDecode : Obligations.VectorWordsDecode :=
  ⟨decode_encode (i := .crcRst) rfl, decode_encode (i := .crcUpd 0x39#8) rfl, decode_encode (i := .crcFin) rfl,
    decode_encode (i := .crcCmp 0x800#12 5#12) rfl, decode_encode (i := .crcX 0x3FE#12 5#12) rfl,
    decode_encode (i := .rev 0xABCD#16 12#5) rfl, decode_encode (i := .pktBld 1#2 255#12 1024#12) rfl⟩

/-- Settles O12: an empty list and an idle cycle are both served by `noAck`. -/
theorem idleBlockHoldsState : Obligations.IdleBlockHoldsState := by
  rintro s (hs | ⟨rest, hs⟩)
  · simp only [step, hs]
    rw [List.tail_nil, ← hs]
    rfl
  · simp only [step, hs, serve]
    rfl

/-- Settles O43: `resetBlock` writes the values of `State.reset`, whatever the event carries. -/
theorem resetGivesRegisterValues : Obligations.ResetGivesRegisterValues :=
  ⟨⟨rfl, rfl, rfl, rfl⟩, fun _ _ _ hs => ⟨_, step_reset hs, rfl, rfl, rfl, rfl, rfl, rfl⟩⟩

/-- Settles O44: `resetBlock` empties the list of written bytes and counts one generation up. -/
theorem resetForgetsMemory : Obligations.ResetForgetsMemory := by
  refine ⟨fun _ => rfl, fun s t x rest hs h a => ?_⟩
  cases (step_reset hs).symm.trans h
  exact ⟨rfl, rfl⟩

/-- Settles O46: nothing is listed and there is no packet. -/
theorem resetMeetsInvariant : Obligations.ResetMeetsInvariant := ⟨wf_nil, Nat.zero_le 3, .inl rfl⟩

end Sys2Proof.Proofs
